-- ==== Sys2Proof/Word.lean ====
section
/-! DEFINITION. The words of the block: 32-bit field elements and registers (R5), and the bytes a word is made of (R65). -/

namespace Sys2Proof

/-- One byte lane of the host bus (R65). -/
abbrev Byte := BitVec 8

/-- A register, a buffer word or a command word: 32 bits (R5, R90). -/
abbrev Word := BitVec 32

end Sys2Proof
end

