-- ==== Sys2Proof/Config.lean ====
section
/-! DEFINITION. What an implementation of the block fixes (R5: NMAX) and the values the spec leaves free (R241, R242, R250). -/

namespace Sys2Proof

/-- The open parameter of R5. NMAX is any power of two from 1 to 1024, so it is held by its logarithm.
It is a field of State that no step changes, so that a statement about every state is a statement about
every NMAX. DESIGN CHOICE (log 1), safe. -/
structure Config where
  /-- log2 NMAX, also INFO[11:8] (R24) -/
  log2Nmax : Fin 11
deriving DecidableEq, Repr

/-- The maximum ring degree (R5). -/
def Config.nmax (c : Config) : Nat := 2 ^ c.log2Nmax.val

/-- The spec's default, NMAX = 1024 (R5, D3). -/
def Config.standard : Config := { log2Nmax := 10 }

/-- R242: the byte that power-on left at a host offset of P, TW or TWI, free, and stable until the byte is
written (I8). Log 2. -/
opaque Config.powerOnByte : Nat → Byte

/-- R241, R250: the k-th unspecified word the machine draws (I9, I10). Log 3. -/
opaque Config.freeWord : Nat → Word

end Sys2Proof
end

