-- ==== Sys2Proof/Syntax.lean ====
section
/-! DEFINITION. The commands of the block: one constructor per row of the opcode map (R94). -/

namespace Sys2Proof

/-- A scalar register index, x0 to x15 (R22, R92). -/
abbrev RegIx := Fin 16

/-- A polynomial buffer index, p0 to p3 (R23, R92). -/
abbrev BufIx := Fin 4

/-- The 16 commands of R94. Operands stand in the order FA, FB, FC (R102). -/
inductive Instr
  | nop
  | madd (d a b : RegIx)
  | msub (d a b : RegIx)
  | mmul (d a b : RegIx)
  | mpow (d a e : RegIx)
  | minv (d a : RegIx)
  | bfly (w a b : RegIx)
  | ctxset
  | bitrev (d a : BufIx)
  | ntt (d a : BufIx)
  | intt (d a : BufIx)
  | pmul (d a b : BufIx)
  | pscale (d a : BufIx)
  | twist (d a : BufIx)
  | untwist (d a : BufIx)
  | nconv (d a b : BufIx)
deriving DecidableEq, Repr

end Sys2Proof
end

