-- ==== Sys2Proof/WellFormed.lean ====
section
/-! DEFINITION. Which terms of Instr are commands. R92 makes every register index valid, and a buffer index below
NBUF (R98) is its type; the one check left is R99's. -/

namespace Sys2Proof

/-- R99: BFLY names two different registers in FB and FC, because it writes both. -/
def Instr.wf : Instr → Bool
  | .nop => true
  | .madd _ _ _ => true
  | .msub _ _ _ => true
  | .mmul _ _ _ => true
  | .mpow _ _ _ => true
  | .minv _ _ => true
  | .bfly _ a b => a != b
  | .ctxset => true
  | .bitrev _ _ => true
  | .ntt _ _ => true
  | .intt _ _ => true
  | .pmul _ _ _ => true
  | .pscale _ _ => true
  | .twist _ _ => true
  | .untwist _ _ => true
  | .nconv _ _ _ => true

end Sys2Proof
end

