-- ==== Sys2Proof/Decode.lean ====
section
/-! DEFINITION. The decoder of R101, total on every 32-bit word and rejecting by name, and the encoder of R91. -/

namespace Sys2Proof

/-- Why a word is Illegal, in the order of R101's checks. The block reports every one as IllegalCommand. -/
inductive Reject
  | reservedBits     -- R96: c[31:20] ≠ 0
  | reservedOpcode   -- R95: OPC 0x07–0x0F or 0x19–0xFF
  | unusedField      -- R97: a field the opcode leaves unused is not 0
  | bufferIndex      -- R98: a buffer index is NBUF or more
  | sameRegister     -- R99: BFLY with FB = FC
deriving DecidableEq, Repr

/-- OPC = c[7:0] (R91). -/
def fieldOpc (c : Word) : BitVec 8 := c.extractLsb' 0 8
/-- FA = c[11:8] (R91). -/
def fieldA (c : Word) : BitVec 4 := c.extractLsb' 8 4
/-- FB = c[15:12] (R91). -/
def fieldB (c : Word) : BitVec 4 := c.extractLsb' 12 4
/-- FC = c[19:16] (R91). -/
def fieldC (c : Word) : BitVec 4 := c.extractLsb' 16 4
/-- RSVD = c[31:20] (R91). -/
def fieldRsvd (c : Word) : BitVec 12 := c.extractLsb' 20 12

/-- A field as a scalar register index: every 4-bit value names one (R92, R93). -/
def regOf (f : BitVec 4) : RegIx := ⟨f.toNat, f.isLt⟩

/-- A field as a buffer index: only 0 to 3 name one (R98). -/
def bufOf (f : BitVec 4) : Except Reject BufIx :=
  if h : f.toNat < 4 then .ok ⟨f.toNat, h⟩ else .error .bufferIndex

/-- A control command: no field is used (R92). -/
def decodeControl (i : Instr) (c : Word) : Except Reject Instr :=
  if fieldA c = 0 ∧ fieldB c = 0 ∧ fieldC c = 0 then .ok i else .error .unusedField

/-- A scalar command with three registers. -/
def decodeReg3 (k : RegIx → RegIx → RegIx → Instr) (c : Word) : Except Reject Instr :=
  .ok (k (regOf (fieldA c)) (regOf (fieldB c)) (regOf (fieldC c)))

/-- A scalar command with two registers: FC must be 0 (R97). -/
def decodeReg2 (k : RegIx → RegIx → Instr) (c : Word) : Except Reject Instr :=
  if fieldC c = 0 then .ok (k (regOf (fieldA c)) (regOf (fieldB c))) else .error .unusedField

/-- BFLY: FB and FC name different registers (R99). -/
def decodeBfly (c : Word) : Except Reject Instr :=
  if fieldB c = fieldC c then .error .sameRegister
  else .ok (.bfly (regOf (fieldA c)) (regOf (fieldB c)) (regOf (fieldC c)))

/-- A polynomial command with three buffers (R98). -/
def decodeBuf3 (k : BufIx → BufIx → BufIx → Instr) (c : Word) : Except Reject Instr := do
  let d ← bufOf (fieldA c)
  let a ← bufOf (fieldB c)
  let b ← bufOf (fieldC c)
  return k d a b

/-- A polynomial command with two buffers: FC must be 0 (R97, R98). -/
def decodeBuf2 (k : BufIx → BufIx → Instr) (c : Word) : Except Reject Instr :=
  if fieldC c = 0 then do
    let d ← bufOf (fieldA c)
    let a ← bufOf (fieldB c)
    return k d a
  else .error .unusedField

/-- The opcode map of R94, after RSVD is checked. -/
def decodeOpcode (c : Word) : Except Reject Instr :=
  match (fieldOpc c).toNat with
  | 0x00 => decodeControl .nop c
  | 0x01 => decodeReg3 .madd c
  | 0x02 => decodeReg3 .msub c
  | 0x03 => decodeReg3 .mmul c
  | 0x04 => decodeReg3 .mpow c
  | 0x05 => decodeReg2 .minv c
  | 0x06 => decodeBfly c
  | 0x10 => decodeControl .ctxset c
  | 0x11 => decodeBuf2 .bitrev c
  | 0x12 => decodeBuf2 .ntt c
  | 0x13 => decodeBuf2 .intt c
  | 0x14 => decodeBuf3 .pmul c
  | 0x15 => decodeBuf2 .pscale c
  | 0x16 => decodeBuf2 .twist c
  | 0x17 => decodeBuf2 .untwist c
  | 0x18 => decodeBuf3 .nconv c
  | _ => .error .reservedOpcode

/-- R101: the decode function. -/
def decode (c : Word) : Except Reject Instr :=
  if fieldRsvd c = 0 then decodeOpcode c else .error .reservedBits

/-- R91: c = (RSVD, FC, FB, FA, OPC), from the high bits down, with RSVD = 0: FC at bit 16, FB at bit 12, FA at bit 8 and
OPC at bit 0. -/
def commandWord (opc : BitVec 8) (fa fb fc : BitVec 4) : Word :=
  BitVec.ofNat 32 (fc.toNat * 2 ^ 16 + fb.toNat * 2 ^ 12 + fa.toNat * 2 ^ 8 + opc.toNat)

/-- A register index as a field (R93). -/
def regField (r : RegIx) : BitVec 4 := BitVec.ofNat 4 r.val

/-- A buffer index as a field (R93). -/
def bufField (b : BufIx) : BitVec 4 := BitVec.ofNat 4 b.val

/-- The opcode of a command (R94). -/
def opcode : Instr → BitVec 8
  | .nop => 0x00
  | .madd _ _ _ => 0x01
  | .msub _ _ _ => 0x02
  | .mmul _ _ _ => 0x03
  | .mpow _ _ _ => 0x04
  | .minv _ _ => 0x05
  | .bfly _ _ _ => 0x06
  | .ctxset => 0x10
  | .bitrev _ _ => 0x11
  | .ntt _ _ => 0x12
  | .intt _ _ => 0x13
  | .pmul _ _ _ => 0x14
  | .pscale _ _ => 0x15
  | .twist _ _ => 0x16
  | .untwist _ _ => 0x17
  | .nconv _ _ _ => 0x18

/-- The command word of an instruction, from the encoding lines of R132, R141–R145, R161, R162, R164, R165,
R180 and R183–R187. -/
def encode (i : Instr) : Word :=
  match i with
  | .nop => commandWord (opcode i) 0 0 0
  | .madd d a b => commandWord (opcode i) (regField d) (regField a) (regField b)
  | .msub d a b => commandWord (opcode i) (regField d) (regField a) (regField b)
  | .mmul d a b => commandWord (opcode i) (regField d) (regField a) (regField b)
  | .mpow d a e => commandWord (opcode i) (regField d) (regField a) (regField e)
  | .minv d a => commandWord (opcode i) (regField d) (regField a) 0
  | .bfly w a b => commandWord (opcode i) (regField w) (regField a) (regField b)
  | .ctxset => commandWord (opcode i) 0 0 0
  | .bitrev d a => commandWord (opcode i) (bufField d) (bufField a) 0
  | .ntt d a => commandWord (opcode i) (bufField d) (bufField a) 0
  | .intt d a => commandWord (opcode i) (bufField d) (bufField a) 0
  | .pmul d a b => commandWord (opcode i) (bufField d) (bufField a) (bufField b)
  | .pscale d a => commandWord (opcode i) (bufField d) (bufField a) 0
  | .twist d a => commandWord (opcode i) (bufField d) (bufField a) 0
  | .untwist d a => commandWord (opcode i) (bufField d) (bufField a) 0
  | .nconv d a b => commandWord (opcode i) (bufField d) (bufField a) (bufField b)

/-- The command that a word of nbits bits stands for, or none where the word is Illegal. A command is one 32-bit
word (R90), so bits above the 32nd belong to no command and the decoder gives none for them. -/
def decodeTableWord (nbits w : Nat) : Option Instr :=
  let v := w % 2 ^ nbits
  if v < 2 ^ 32 then
    match decode (BitVec.ofNat 32 v) with
    | .ok i => some i
    | .error _ => none
  else none

end Sys2Proof
end

