-- ==== Sys2Proof/Machine/State.lean ====
section
/-! DEFINITION. The state of the block (R21), its input and output at the host port (R48, R60), the reasons a step can
stop, and the state after a power-on reset (R240, R242). -/

namespace Sys2Proof.Machine

/-- P, TW and TWI as bytes at their host offsets (R62, R65–R67), addresses strictly rising. A byte that is not listed
has not been written since power-on: it has no value of its own, and what a read of it gives is `Memory.readByte`
(log 2, log 19). -/
abbrev Memory := List Host.Cell

/-- The canonical form: addresses strictly rising. An unlisted byte is "not written", which no listed value equals. -/
abbrev Memory.wf (m : Memory) : Prop := m.Pairwise (fun c c' => c.1 < c'.1)

/-- R46: the hidden state of the command engine. -/
inductive Engine
  | idle
  | busy (c : Word)
deriving DecidableEq, Repr

/-- The stored fields of STATUS (R26). BUSY is not stored: it is 1 exactly when the engine is Busy (R46), and the
reserved bits read 0. -/
structure Status where
  done : Bool
  err : Bool
  ovr : Bool
  ctxValid : Bool
  lastCode : BitVec 4
deriving DecidableEq, Repr

/-- The stored bits of IRQ_EN (R34). -/
structure IrqEn where
  doneIe : Bool
  errIe : Bool
  ovrIe : Bool
deriving DecidableEq, Repr

/-- The result codes of R210. The two reserved kinds have code points and are never raised. -/
inductive Code
  | ok
  | notInvertible
  | invalidInput
  | invalidRoot
  | noPrimeFound
  | factorizationIncomplete
  | illegalCommand
  | noContext
deriving DecidableEq, Repr

/-- resp of R60. -/
inductive Resp
  | ok
  | error
deriving DecidableEq, Repr

/-- A host transaction of R60 with its byte enables (R48, R61). -/
inductive Transaction
  | read (addr : BitVec 16) (be : BitVec 4)
  | write (addr : BitVec 16) (be : BitVec 4) (data : Word)
deriving DecidableEq, Repr

/-- What a transaction returns (R60): (data, resp) for a read, resp for a write. -/
inductive Answer
  | read (data : Word) (resp : Resp)
  | write (resp : Resp)
deriving DecidableEq, Repr

/-- One step of an agent (R15, R72), or an edge of the reset input (R240). -/
inductive Event
  | host (t : Transaction)
  | complete           -- the engine's completion step (R122)
  | resetEdge          -- a rising edge of clk that finds rst_n = 0
  | resetRelease       -- rst_n returns to 1
deriving DecidableEq, Repr

/-- The state of the block. -/
structure State where
  /-- NMAX, fixed (R5, log 1) -/
  config : Config
  /-- x0–x15 (R22) -/
  x : Vector Word 16
  /-- P, TW and TWI (R23, R43, R44) -/
  mem : Memory
  /-- Q (R35) -/
  q : Word
  /-- N (R36) -/
  n : Word
  /-- OMEGA (R37) -/
  omega : Word
  /-- OMEGA_INV (R39) -/
  omegaInv : Word
  /-- OMEGA_N (R40) -/
  omegaN : Word
  /-- OMEGA_N_INV (R41) -/
  omegaNInv : Word
  /-- N_INV (R42) -/
  nInv : Word
  /-- CMD (R25) -/
  cmd : Word
  /-- STATUS (R26) -/
  status : Status
  /-- IRQ_EN (R34) -/
  irqEn : IrqEn
  /-- the command engine (R46) -/
  engine : Engine
  /-- the level of the input rst_n (R48, R240) -/
  rstN : Bool
  /-- the model's own: the steps still to come, in order (R15, R72, log 4) -/
  schedule : List Event
  /-- the model's own: the answer of the transaction that the last step completed, if it was one (R60, log 11) -/
  answer : Option Answer
  /-- the model's own: how many free words have been drawn (log 3) -/
  draws : Nat
deriving DecidableEq, Repr

/-- Nothing stops this machine: an error is a result code in STATUS (R123, R211), and misuse of the port is an ERROR
response (R214). So there is no fault to raise, and no constructor: that no step faults holds by this type. Safe. -/
inductive Fault
deriving DecidableEq, Repr

/-- Why the model gives an instruction no meaning. -/
inductive Refusal
  /-- Raised by exec's arm for an instruction that has no meaning yet. Safe. No arm raises it. -/
  | notModelled (mnemonic : String)
deriving DecidableEq, Repr

/-- R240 and R242: the state right after a reset with no earlier state, when rst_n has returned to 1. Every register at
the value R240 gives it, nothing written in P, TW and TWI, and no step scheduled (log 4, log 12). -/
def State.reset : State where
  config := Config.standard
  x := Vector.replicate 16 0
  mem := []
  q := 0
  n := 0
  omega := 0
  omegaInv := 0
  omegaN := 0
  omegaNInv := 0
  nInv := 0
  cmd := 0
  status := { done := false, err := false, ovr := false, ctxValid := false, lastCode := 0 }
  irqEn := { doneIe := false, errIe := false, ovrIe := false }
  engine := .idle
  rstN := true
  schedule := []
  answer := none
  draws := 0

end Sys2Proof.Machine
end

