-- ==== Sys2Proof/Machine/Flags.lean ====
section
/-! DEFINITION. STATUS, IRQ_EN and irq: how each field is read, and every way it is written (R26–R34, R215, R216). -/

namespace Sys2Proof.Machine

/-- The 4-bit code of R210. -/
def Code.bits : Code → BitVec 4
  | .ok => 0
  | .notInvertible => 1
  | .invalidInput => 2
  | .invalidRoot => 3
  | .noPrimeFound => 4
  | .factorizationIncomplete => 5
  | .illegalCommand => 6
  | .noContext => 7

/-- R46: STATUS.BUSY is 1 exactly when the engine is Busy. -/
def Engine.isBusy : Engine → Bool
  | .idle => false
  | .busy _ => true

/-- STATUS as the host reads it (R26): LASTCODE in 11:8, CTXVALID, OVR, ERR, DONE, BUSY in 4 to 0, the rest 0. -/
def Status.toWord (busy : Bool) (st : Status) : Word :=
  0#20 ++ st.lastCode ++ 0#3 ++ BitVec.ofBool st.ctxValid ++ BitVec.ofBool st.ovr ++ BitVec.ofBool st.err
    ++ BitVec.ofBool st.done ++ BitVec.ofBool busy

/-- R33: a host write of v clears DONE, ERR and OVR where v has a 1, and ignores every other bit. -/
def Status.clearedBy (v : Word) (st : Status) : Status :=
  { st with
    done := st.done && !v.getLsbD 1
    err := st.err && !v.getLsbD 2
    ovr := st.ovr && !v.getLsbD 3 }

/-- R120: issuing a command clears DONE (and sets BUSY, which is the engine's state). -/
def Status.issued (st : Status) : Status := { st with done := false }

/-- R121, R251: a write ignored while busy sets OVR. -/
def Status.overrun (st : Status) : Status := { st with ovr := true }

/-- R38: an accepted write to Q, N or OMEGA clears CTXVALID. -/
def Status.contextLost (st : Status) : Status := { st with ctxValid := false }

/-- R182: a successful CTXSET sets CTXVALID. -/
def Status.contextSet (st : Status) : Status := { st with ctxValid := true }

/-- R123–R125: a completion sets DONE and LASTCODE, and sets ERR if the command raised an error. ERR is sticky (R29). -/
def Status.completed (code : Code) (st : Status) : Status :=
  { st with
    done := true
    err := st.err || code != .ok
    lastCode := code.bits }

/-- IRQ_EN as the host reads it (R34): bits 31:3 read 0. -/
def IrqEn.toWord (e : IrqEn) : Word :=
  0#29 ++ BitVec.ofBool e.ovrIe ++ BitVec.ofBool e.errIe ++ BitVec.ofBool e.doneIe

/-- R34: a host write stores v[2:0] and ignores v[31:3]. -/
def IrqEn.ofWord (v : Word) : IrqEn :=
  { doneIe := v.getLsbD 0, errIe := v.getLsbD 1, ovrIe := v.getLsbD 2 }

/-- STATUS.BUSY (R27, R46). -/
def State.busy (s : State) : Bool := s.engine.isBusy

/-- STATUS as the host reads it (R26). -/
def State.statusWord (s : State) : Word := s.status.toWord s.busy

/-- INFO (R24): VERSION 0x01, reserved 0, NSREG − 1, NBUF, log2 NMAX, W. -/
def State.info (s : State) : Word :=
  0x01#8 ++ 0#4 ++ 0xF#4 ++ 0x4#4 ++ BitVec.ofNat 4 s.config.log2Nmax.val ++ 0x20#8

/-- R215: the level of the interrupt output. -/
def State.irq (s : State) : Bool :=
  (s.status.done && s.irqEn.doneIe) || (s.status.err && s.irqEn.errIe) || (s.status.ovr && s.irqEn.ovrIe)

end Sys2Proof.Machine
end

