-- ==== Sys2Proof/Machine/Ops.lean ====
section
/-! DEFINITION. The named operations over memory and registers, and the common life of a command: issue (R120), completion
with or without an error (R122–R125). -/

namespace Sys2Proof.Machine

/-! ### Memory: bytes, words and blocks of words -/

/-- The value listed at an address, if the byte was written. -/
def Memory.lookup : Memory → Nat → Option Byte
  | [], _ => none
  | c :: m, a => if c.1 = a then some c.2 else Memory.lookup m a

/-- One byte. A byte not written since power-on holds an unspecified value that stays the same until it is written
(R242, I8). Log 2. -/
def Memory.readByte (m : Memory) (a : Nat) : Byte := (m.lookup a).getD (Config.powerOnByte a)

/-- The cells of a block of bytes from an address up. -/
def Memory.cells (a : Nat) : List Byte → Memory
  | [] => []
  | b :: bs => (a, b) :: Memory.cells (a + 1) bs

/-- Store a block of bytes at an address: the cells below it, the block, the cells above it. -/
def Memory.writeBytes (m : Memory) (a : Nat) (bs : List Byte) : Memory :=
  m.filter (fun c => decide (c.1 < a)) ++ Memory.cells a bs ++ m.filter (fun c => decide (a + bs.length ≤ c.1))

/-- The bytes of a word, lane 0 first: lane k carries bits 8k+7..8k (R65). -/
def wordBytes (w : Word) : List Byte :=
  [w.extractLsb' 0 8, w.extractLsb' 8 8, w.extractLsb' 16 8, w.extractLsb' 24 8]

/-- The word at a byte address, lane 0 at the address itself (R65). -/
def Memory.readWord (m : Memory) (a : Nat) : Word :=
  m.readByte (a + 3) ++ m.readByte (a + 2) ++ m.readByte (a + 1) ++ m.readByte a

/-- Store consecutive words from a byte address up. -/
def Memory.writeWords (m : Memory) (a : Nat) (ws : List Word) : Memory := m.writeBytes a (ws.flatMap wordBytes)

/-- Host offset of P[b][0] (R66). -/
def bufBase (b : BufIx) : Nat := 0x4000 + 4096 * b.val

/-- Host offset of TW[0] (R67). -/
def twBase : Nat := 0x8000

/-- Host offset of TWI[0] (R67). -/
def twiBase : Nat := 0x9000

/-- P[b][i] (R23, R66). -/
def State.poly (s : State) (b : BufIx) (i : Nat) : Word := s.mem.readWord (bufBase b + 4 * i)

/-- TW[i] (R43, R67). -/
def State.tw (s : State) (i : Nat) : Word := s.mem.readWord (twBase + 4 * i)

/-- TWI[i] (R44, R67). -/
def State.twi (s : State) (i : Nat) : Word := s.mem.readWord (twiBase + 4 * i)

/-- A list of naturals as words. Each is below 2^32 where a rule stores it (R140). -/
def toWords (vs : List Nat) : List Word := vs.map (BitVec.ofNat 32)

/-- Write words of P, TW or TWI from a host offset up. -/
def State.writeMem (s : State) (a : Nat) (ws : List Word) : State := { s with mem := s.mem.writeWords a ws }

/-- Write words 0, 1, … of a buffer (R128). -/
def State.writeBuf (s : State) (b : BufIx) (vs : List Nat) : State := s.writeMem (bufBase b) (toWords vs)

/-! ### Scalar registers -/

/-- x[i] (R10, R22). -/
def State.readX (s : State) (r : RegIx) : Word := s.x.get r

/-- x[i] <- v (R10, R22): no register is hardwired. -/
def State.writeX (s : State) (r : RegIx) (v : Nat) : State := { s with x := s.x.set r.val (BitVec.ofNat 32 v) r.isLt }

/-! ### The life of a command -/

/-- R120: a command word is issued to the idle engine. -/
def State.issue (s : State) (c : Word) : State :=
  { s with cmd := c, engine := .busy c, status := s.status.issued }

/-- R123–R125: what every completion writes, with result code `code`. -/
def State.finish (s : State) (code : Code) : State :=
  { s with status := s.status.completed code, engine := .idle }

/-- A machine outcome. -/
abbrev Result := Host.Outcome State Fault Refusal

/-- R122: the completion step of a command whose check phase and results are `r`, in state `s`. Where the check phase
raised an error, nothing is written but STATUS (R123). Where it passed, `r` is the state with all results written at
once (R124). -/
def complete (s : State) (r : Except Code State) : Result :=
  match r with
  | .ok t => .next (t.finish .ok)
  | .error code => .next (s.finish code)

/-- R10, R123: `raise`, the one way an error is taken. The block has no other exception (R218). -/
def raise {α : Type} (code : Code) : Except Code α := .error code

/-! ### Free words -/

/-- Write `k` unspecified words from a host offset up, each a fresh draw (R241, I10). Log 3. -/
def State.scramble (s : State) (a k : Nat) : State :=
  { s with
    mem := s.mem.writeWords a ((List.range k).map (fun j => Config.freeWord (s.draws + j)))
    draws := s.draws + k }

end Sys2Proof.Machine
end

