-- ==== Sys2Proof/Machine/Operands.lean ====
section
/-! DEFINITION. The check phase's operand forms (R126): the modulus of a scalar command, a scalar field element, the context
and the source buffers of a polynomial command. Each either gives the value or raises the error of its rule. -/

namespace Sys2Proof.Machine

/-- R129: the modulus of a scalar command is Q, which must be odd and at least 3. -/
def modulus (s : State) : Except Code Nat :=
  if s.q.toNat < 3 ∨ s.q.toNat % 2 = 0 then raise .invalidInput else .ok s.q.toNat

/-- R129: a register read as a field element must be below q; nothing is reduced first. -/
def element (s : State) (q : Nat) (r : RegIx) : Except Code Nat :=
  if (s.readX r).toNat < q then .ok (s.readX r).toNat else raise .invalidInput

/-- R130: a polynomial command needs a valid context. -/
def context (s : State) : Except Code Unit :=
  if s.status.ctxValid then .ok () else raise .noContext

/-- The ring degree n of the context (R130). -/
def State.degree (s : State) : Nat := s.n.toNat

/-- The modulus q of the context (R130). -/
def State.modq (s : State) : Nat := s.q.toNat

/-- Words 0..n−1 of a source buffer (R128), read before any result is written (R71, R127). -/
def State.source (s : State) (b : BufIx) : List Nat := (List.range s.degree).map (fun i => (s.poly b i).toNat)

/-- TW[0..n−1] (R130). -/
def State.twiddles (s : State) : List Nat := (List.range s.degree).map (fun i => (s.tw i).toNat)

/-- TWI[0..n−1] (R130). -/
def State.inverseTwiddles (s : State) : List Nat := (List.range s.degree).map (fun i => (s.twi i).toNat)

/-- R131: every word 0..n−1 of a source buffer must be below q. -/
def elements (s : State) (b : BufIx) : Except Code (List Nat) :=
  if (s.source b).all (fun v => decide (v < s.modq)) then .ok (s.source b) else raise .invalidInput

end Sys2Proof.Machine
end

