-- ==== Sys2Proof/Machine/Arith.lean ====
section
/-! DEFINITION. The arithmetic of the block on unbounded naturals (R9, R140): modular operations, powmod, bit reversal, the
transform sums and the reference butterfly network. No operation wraps. -/

namespace Sys2Proof.Machine

/-- (a + b) mod q (R141). -/
def addMod (a b q : Nat) : Nat := (a + b) % q

/-- (a − b) mod q for b < q (R142): a − b if a ≥ b, else a − b + q. -/
def subMod (a b q : Nat) : Nat := if b ≤ a then a - b else a + q - b

/-- (a · b) mod q with the full product (R143). -/
def mulMod (a b q : Nat) : Nat := a * b % q

/-- Repeated squaring on at most `fuel` exponent bits. -/
def powModFuel : Nat → Nat → Nat → Nat → Nat
  | 0, _, _, q => 1 % q
  | fuel + 1, a, e, q =>
    if e = 0 then 1 % q
    else if e % 2 = 1 then powModFuel fuel (a * a % q) (e / 2) q * a % q
    else powModFuel fuel (a * a % q) (e / 2) q

/-- powmod(a, e, q) = (a ^ e) mod q with a ^ 0 = 1 (R9, R144). Only the value is architectural (R147); it is computed by
repeated squaring so that it can be evaluated, and `powMod_eq` says that it is that value. Log 17. -/
def powMod (a e q : Nat) : Nat := powModFuel (e.log2 + 1) a e q

/-- bfly(a, b, w) = ((a + w·b) mod q, (a − w·b) mod q) (R160). -/
def butterfly (a b w q : Nat) : Nat × Nat := (addMod a (mulMod w b q) q, subMod a (mulMod w b q) q)

/-- rev_k(i): bit j of the result is bit k−1−j of i (R11). -/
def bitRev : Nat → Nat → Nat
  | 0, _ => 0
  | k + 1, i => 2 ^ k * (i % 2) + bitRev k (i / 2)

/-- Word i of the result is word rev_k(i) of the source, k = log2 n (R162). -/
def bitReverse (ys : List Nat) : List Nat :=
  (List.range ys.length).map (fun i => ys.getD (bitRev ys.length.log2 i) 0)

/-- Σ_j ys[j] · p · w^j, the power of w kept below q (log 17). -/
def powerSum (w q : Nat) : List Nat → Nat → Nat
  | [], _ => 0
  | y :: ys, p => y * p + powerSum w q ys (p * w % q)

/-- Word k of the transform with root r: (Σ_j ys[j] · r^(jk)) mod q (R164, R165). -/
def transformAt (r q : Nat) (ys : List Nat) (k : Nat) : Nat := powerSum (powMod r k q) q ys (1 % q) % q

/-- The transform with root r, in natural order (R164, R165). -/
def transform (r q : Nat) (ys : List Nat) : List Nat := (List.range ys.length).map (transformAt r q ys)

/-- (ys[i] · zs[i]) mod q for each i (R183, R185). -/
def pointwise (q : Nat) (ys zs : List Nat) : List Nat := List.zipWith (fun y z => mulMod y z q) ys zs

/-- (ys[i] · c) mod q for each i (R184). -/
def scale (q c : Nat) (ys : List Nat) : List Nat := ys.map (fun y => mulMod y c q)

/-- (ys[i] · c · zs[i]) mod q for each i (R186). -/
def scalePointwise (q c : Nat) (ys zs : List Nat) : List Nat := List.zipWith (fun y z => y * c * z % q) ys zs

/-- The five steps of R187 on sequences. `tw`, `twi` are the tables, `r`, `ri` the roots OMEGA_N and OMEGA_N_INV, `ni` is
N_INV. -/
def negacyclic (q r ri ni : Nat) (tw twi as bs : List Nat) : List Nat :=
  let a' := pointwise q as tw
  let b' := pointwise q bs tw
  let c := pointwise q (transform r q a') (transform r q b')
  scalePointwise q ni (transform ri q c) twi

/-- One stage of R163's network with block length `len`: every word of the sequence belongs to one butterfly, whose
twiddle is T[2·j·(n div len)]. Log 21. -/
def netStage (q len : Nat) (tbl ys : List Nat) : List Nat :=
  (List.range ys.length).map fun p =>
    let h := len / 2
    let j := p % len
    let w := tbl.getD (2 * (j % h) * (ys.length / len)) 0
    if j < h then (butterfly (ys.getD p 0) (ys.getD (p + h) 0) w q).1
    else (butterfly (ys.getD (p - h) 0) (ys.getD p 0) w q).2

/-- The stages with block lengths 2, 4, …, 2^k, in that order (R163). -/
def netStages (q : Nat) (tbl ys : List Nat) : Nat → List Nat
  | 0 => ys
  | k + 1 => netStage q (2 ^ (k + 1)) tbl (netStages q tbl ys k)

/-- NET(a, T), the reference butterfly network of R163. No command is defined by it: R164 and R165 define NTT and INTT by
their sums, and R166 says the two agree. -/
def net (q : Nat) (tbl ys : List Nat) : List Nat := netStages q tbl (bitReverse ys) ys.length.log2

end Sys2Proof.Machine
end

