-- ==== Sys2Proof/Machine/Polynomial.lean ====
section
/-! DEFINITION. The meanings of CTXSET and the polynomial commands (R162, R164, R165, R180–R187). Each reads its checks in
the order of R126. -/

namespace Sys2Proof.Machine

/-- N is a power of two with 1 ≤ N ≤ NMAX, as R180 writes it: N ≠ 0, N & (N − 1) = 0 and N ≤ NMAX. -/
def degreeOk (s : State) : Bool :=
  decide (s.n ≠ 0) && decide (s.n &&& (s.n - 1) = 0) && decide (s.n.toNat ≤ s.config.nmax)

/-- R180: CTXSET's parameter checks, in order. -/
def contextParameters (s : State) : Except Code Unit :=
  if !degreeOk s then raise .invalidInput
  else if s.q.toNat < 3 then raise .invalidInput
  else if (s.q.toNat - 1) % (2 * s.n.toNat) ≠ 0 then raise .invalidInput
  else if s.q.toNat ≤ s.omega.toNat then raise .invalidInput
  else .ok ()

/-- R181: CTXSET's root checks, in order. -/
def contextRoots (s : State) : Except Code Unit :=
  if powMod s.omega.toNat (2 * s.n.toNat) s.q.toNat ≠ 1 then raise .invalidRoot
  else if powMod s.omega.toNat s.n.toNat s.q.toNat ≠ s.q.toNat - 1 then raise .invalidRoot
  else .ok ()

/-- The table r^0, r^1, …, r^(n−1) mod q (R182). -/
def powerTable (r n q : Nat) : List Nat := (List.range n).map (fun i => powMod r i q)

/-- R182: the results of CTXSET. -/
def State.loadContext (s : State) : State :=
  let q := s.q.toNat
  let n := s.n.toNat
  let w := s.omega.toNat
  let wInv := powMod w (q - 2) q
  { s with
    omegaInv := BitVec.ofNat 32 wInv
    omegaN := BitVec.ofNat 32 (mulMod w w q)
    omegaNInv := BitVec.ofNat 32 (mulMod wInv wInv q)
    nInv := BitVec.ofNat 32 (powMod n (q - 2) q)
    mem := (s.mem.writeWords twBase (toWords (powerTable w n q))).writeWords twiBase (toWords (powerTable wInv n q))
    status := s.status.contextSet }

/-- CTXSET (R180–R182). -/
def execCtxset (s : State) : Result := complete s do
  contextParameters s
  contextRoots s
  return s.loadContext

/-- BITREV (R162): no range check. -/
def execBitrev (d a : BufIx) (s : State) : Result := complete s do
  context s
  return s.writeBuf d (bitReverse (s.source a))

/-- NTT (R164). -/
def execNtt (d a : BufIx) (s : State) : Result := complete s do
  context s
  let va ← elements s a
  return s.writeBuf d (transform s.omegaN.toNat s.modq va)

/-- INTT (R165): not scaled. -/
def execIntt (d a : BufIx) (s : State) : Result := complete s do
  context s
  let va ← elements s a
  return s.writeBuf d (transform s.omegaNInv.toNat s.modq va)

/-- PMUL (R183). -/
def execPmul (d a b : BufIx) (s : State) : Result := complete s do
  context s
  let va ← elements s a
  let vb ← elements s b
  return s.writeBuf d (pointwise s.modq va vb)

/-- PSCALE (R184). -/
def execPscale (d a : BufIx) (s : State) : Result := complete s do
  context s
  let va ← elements s a
  return s.writeBuf d (scale s.modq s.nInv.toNat va)

/-- TWIST (R185). -/
def execTwist (d a : BufIx) (s : State) : Result := complete s do
  context s
  let va ← elements s a
  return s.writeBuf d (pointwise s.modq va s.twiddles)

/-- UNTWIST (R186). -/
def execUntwist (d a : BufIx) (s : State) : Result := complete s do
  context s
  let va ← elements s a
  return s.writeBuf d (scalePointwise s.modq s.nInv.toNat va s.inverseTwiddles)

/-- NCONV (R187): only the result is written. -/
def execNconv (d a b : BufIx) (s : State) : Result := complete s do
  context s
  let va ← elements s a
  let vb ← elements s b
  return s.writeBuf d
    (negacyclic s.modq s.omegaN.toNat s.omegaNInv.toNat s.nInv.toNat s.twiddles s.inverseTwiddles va vb)

end Sys2Proof.Machine
end

