-- ==== Sys2Proof/Machine/Scalar.lean ====
section
/-! DEFINITION. The meanings of NOP and the scalar commands (R132, R141–R145, R161). Each reads its checks in the order of
R126. -/

namespace Sys2Proof.Machine

/-- NOP does nothing (R132). -/
def execNop (s : State) : Result := complete s (.ok s)

/-- MADD (R141). -/
def execMadd (d a b : RegIx) (s : State) : Result := complete s do
  let q ← modulus s
  let va ← element s q a
  let vb ← element s q b
  return s.writeX d (addMod va vb q)

/-- MSUB (R142). -/
def execMsub (d a b : RegIx) (s : State) : Result := complete s do
  let q ← modulus s
  let va ← element s q a
  let vb ← element s q b
  return s.writeX d (subMod va vb q)

/-- MMUL (R143). -/
def execMmul (d a b : RegIx) (s : State) : Result := complete s do
  let q ← modulus s
  let va ← element s q a
  let vb ← element s q b
  return s.writeX d (mulMod va vb q)

/-- MPOW (R144): the exponent is any 32-bit value. -/
def execMpow (d a e : RegIx) (s : State) : Result := complete s do
  let q ← modulus s
  let va ← element s q a
  return s.writeX d (powMod va (s.readX e).toNat q)

/-- MINV (R145). -/
def execMinv (d a : RegIx) (s : State) : Result := complete s do
  let q ← modulus s
  let va ← element s q a
  if va = 0 then raise .notInvertible else return s.writeX d (powMod va (q - 2) q)

/-- BFLY (R161). No word decodes to FB = FC; a term that has it is illegal as R99 says (log 18). -/
def execBfly (w a b : RegIx) (s : State) : Result := complete s do
  if a = b then raise .illegalCommand else
  let q ← modulus s
  let vw ← element s q w
  let va ← element s q a
  let vb ← element s q b
  let r := butterfly va vb vw q
  return (s.writeX a r.1).writeX b r.2

end Sys2Proof.Machine
end

