-- ==== Sys2Proof/Machine/Dispatch.lean ====
section
/-! DEFINITION. exec of R122 with its commit: the completion of a decoded command, one arm per command of R94. -/

namespace Sys2Proof.Machine

def exec (i : Instr) (s : State) : Host.Outcome State Fault Refusal :=
  match i with
  -- control and scalar class
  | .nop => Sys2Proof.Machine.execNop s
  | .madd d a b => Sys2Proof.Machine.execMadd d a b s
  | .msub d a b => Sys2Proof.Machine.execMsub d a b s
  | .mmul d a b => Sys2Proof.Machine.execMmul d a b s
  | .mpow d a e => Sys2Proof.Machine.execMpow d a e s
  | .minv d a => Sys2Proof.Machine.execMinv d a s
  | .bfly w a b => Sys2Proof.Machine.execBfly w a b s
  -- control and polynomial class
  | .ctxset => Sys2Proof.Machine.execCtxset s
  | .bitrev d a => Sys2Proof.Machine.execBitrev d a s
  | .ntt d a => Sys2Proof.Machine.execNtt d a s
  | .intt d a => Sys2Proof.Machine.execIntt d a s
  | .pmul d a b => Sys2Proof.Machine.execPmul d a b s
  | .pscale d a => Sys2Proof.Machine.execPscale d a s
  | .twist d a => Sys2Proof.Machine.execTwist d a s
  | .untwist d a => Sys2Proof.Machine.execUntwist d a s
  | .nconv d a b => Sys2Proof.Machine.execNconv d a b s

end Sys2Proof.Machine
end

