-- ==== Sys2Proof/Machine/Engine.lean ====
section
/-! DEFINITION. The engine's step (R122) and reset (R240, R241). -/

namespace Sys2Proof.Machine

/-- R122: the engine's only step. Enabled while Busy; an idle engine does nothing (R224). An Illegal word completes with
IllegalCommand (R95–R100, R126). The command is evaluated on the state at completion, which agrees with the state at
issue on everything a command reads (R71, R133, log 5). -/
def completeStep (s : State) : Result :=
  match s.engine with
  | .idle => .next s
  | .busy c =>
    match decode c with
    | .error _ => complete s (raise .illegalCommand)
    | .ok i => exec i s

/-- The destination buffer of a polynomial command (R94). -/
def polyDest : Instr → Option BufIx
  | .nop => none
  | .madd _ _ _ => none
  | .msub _ _ _ => none
  | .mmul _ _ _ => none
  | .mpow _ _ _ => none
  | .minv _ _ => none
  | .bfly _ _ _ => none
  | .ctxset => none
  | .bitrev d _ => some d
  | .ntt d _ => some d
  | .intt d _ => some d
  | .pmul d _ _ => some d
  | .pscale d _ => some d
  | .twist d _ => some d
  | .untwist d _ => some d
  | .nconv d _ _ => some d

/-- R241: what an abandoned command leaves unspecified. A polynomial command: words 0..n−1 of its destination, n the
context degree, so none where there is no context (log 8). CTXSET: TW[0..N−1] and TWI[0..N−1], as far as the tables go
(log 9). Every other command: nothing. -/
def abandonInstr (i : Instr) (s : State) : State :=
  match polyDest i with
  | some d => if s.status.ctxValid then s.scramble (bufBase d) s.degree else s
  | none =>
    if i = .ctxset then
      (s.scramble twBase (min s.n.toNat s.config.nmax)).scramble twiBase (min s.n.toNat s.config.nmax)
    else s

/-- R241: the command that runs when reset occurs is abandoned. The spec does not say whether an Illegal word with the opcode
of a polynomial command or of CTXSET, such as 0x00004112, counts as that command here. DESIGN CHOICE (log 22), unsafe: it
does not, and no word of P, TW or TWI becomes unspecified. -/
def abandon (s : State) : State :=
  match s.engine with
  | .idle => s
  | .busy c =>
    match decode c with
    | .error _ => s
    | .ok i => abandonInstr i s

/-- R240: a rising edge that finds rst_n = 0. Every register takes its reset value; P, TW and TWI keep their contents
but for what an abandoned command leaves unspecified (R241). -/
def resetEdge (s : State) : State :=
  { State.reset with
    config := s.config
    mem := (abandon s).mem
    draws := (abandon s).draws
    rstN := false
    schedule := s.schedule }

/-- R240: rst_n returns to 1. -/
def resetRelease (s : State) : State := { s with rstN := true }

end Sys2Proof.Machine
end

