-- ==== Sys2Proof/Machine/HostPort.lean ====
section
/-! DEFINITION. The host port: the register map (R47, R62–R67) and what a read or a write of each location does, idle or busy
(R33, R34, R38, R60–R70, R250, R251). -/

namespace Sys2Proof.Machine

/-- The locations of the register map (R47). -/
inductive Location
  | info
  | cmd
  | status
  | irqEn
  | q
  | n
  | omega
  | omegaInv
  | omegaN
  | omegaNInv
  | nInv
  | x (r : RegIx)
  | poly (b : BufIx) (i : Nat)
  | tw (i : Nat)
  | twi (i : Nat)
deriving DecidableEq, Repr

/-- The named registers of R47, and none at its reserved offsets below 0x0040. -/
def locateRegister (a : Nat) : Option Location :=
  match a with
  | 0x00 => some .info
  | 0x04 => some .cmd
  | 0x08 => some .status
  | 0x0C => some .irqEn
  | 0x10 => some .q
  | 0x14 => some .n
  | 0x18 => some .omega
  | 0x20 => some .omegaInv
  | 0x24 => some .omegaN
  | 0x28 => some .omegaNInv
  | 0x2C => some .nInv
  | _ => none

/-- The location at an aligned host offset, or none where it is reserved or its index is NMAX or more (R47, R62, R63,
R66, R67). -/
def locate (cfg : Config) (a : Nat) : Option Location :=
  let i := a / 4 % 1024
  if a < 0x40 then locateRegister a
  else if a < 0x80 then some (.x (Fin.ofNat 16 ((a - 0x40) / 4)))
  else if a < 0x4000 then none
  else if a < 0x8000 then
    if i < cfg.nmax then some (.poly (Fin.ofNat 4 (a / 4096)) i) else none
  else if a < 0x9000 then
    if i < cfg.nmax then some (.tw i) else none
  else if a < 0xA000 then
    if i < cfg.nmax then some (.twi i) else none
  else none

/-- R61: only a whole, aligned word is accessed. -/
def accessOk (addr : BitVec 16) (be : BitVec 4) : Bool := decide (be = 0b1111#4) && decide (addr.toNat % 4 = 0)

/-- R64: the read-only locations. -/
def Location.readOnly : Location → Bool
  | .info => true
  | .cmd => false
  | .status => false
  | .irqEn => false
  | .q => false
  | .n => false
  | .omega => false
  | .omegaInv => true
  | .omegaN => true
  | .omegaNInv => true
  | .nInv => true
  | .x _ => false
  | .poly _ _ => false
  | .tw _ => true
  | .twi _ => true

/-- R250: the locations whose value a read during a busy period does not give. -/
def Location.unspecifiedWhileBusy : Location → Bool
  | .info => false
  | .cmd => false
  | .status => false
  | .irqEn => false
  | .q => false
  | .n => false
  | .omega => false
  | .omegaInv => true
  | .omegaN => true
  | .omegaNInv => true
  | .nInv => true
  | .x _ => true
  | .poly _ _ => true
  | .tw _ => true
  | .twi _ => true

/-- The value of a location (R47). -/
def State.valueAt (s : State) : Location → Word
  | .info => s.info
  | .cmd => s.cmd
  | .status => s.statusWord
  | .irqEn => s.irqEn.toWord
  | .q => s.q
  | .n => s.n
  | .omega => s.omega
  | .omegaInv => s.omegaInv
  | .omegaN => s.omegaN
  | .omegaNInv => s.omegaNInv
  | .nInv => s.nInv
  | .x r => s.readX r
  | .poly b i => s.poly b i
  | .tw i => s.tw i
  | .twi i => s.twi i

/-- The answer of the transaction that this step completes (R60). -/
def State.answered (s : State) (a : Answer) : State := { s with answer := some a }

/-- MemRead (R60). A rejected read returns data 0 (R61, R63). A read of a result location during a busy period returns a
fresh unspecified word (R250). -/
def hostRead (addr : BitVec 16) (be : BitVec 4) (s : State) : State :=
  if accessOk addr be then
    match locate s.config addr.toNat with
    | none => s.answered (.read 0 .error)
    | some l =>
      if s.busy && l.unspecifiedWhileBusy then
        { s with draws := s.draws + 1, answer := some (.read (Config.freeWord s.draws) .ok) }
      else s.answered (.read (s.valueAt l) .ok)
  else s.answered (.read 0 .error)

/-- An accepted write to a location that is not read-only, by the idle block (R22, R25, R33–R38, R66). -/
def State.store (s : State) (l : Location) (v : Word) : State :=
  match l with
  | .info => s
  | .cmd => s.issue v
  | .status => { s with status := s.status.clearedBy v }
  | .irqEn => { s with irqEn := IrqEn.ofWord v }
  | .q => { s with q := v, status := s.status.contextLost }
  | .n => { s with n := v, status := s.status.contextLost }
  | .omega => { s with omega := v, status := s.status.contextLost }
  | .omegaInv => s
  | .omegaN => s
  | .omegaNInv => s
  | .nInv => s
  | .x r => s.writeX r v.toNat
  | .poly b i => s.writeMem (bufBase b + 4 * i) [v]
  | .tw _ => s
  | .twi _ => s

/-- R251: the writes that are accepted during a busy period. -/
def Location.acceptedWhileBusy : Location → Bool
  | .info => false
  | .cmd => false
  | .status => true
  | .irqEn => true
  | .q => false
  | .n => false
  | .omega => false
  | .omegaInv => false
  | .omegaN => false
  | .omegaNInv => false
  | .nInv => false
  | .x _ => false
  | .poly _ _ => false
  | .tw _ => false
  | .twi _ => false

/-- MemWrite (R60). Rejected: misaligned or partial (R61), reserved or unmapped (R63), read-only (R64). Ignored with OVR
while busy (R121, R251). Otherwise stored. -/
def hostWrite (addr : BitVec 16) (be : BitVec 4) (v : Word) (s : State) : State :=
  if accessOk addr be then
    match locate s.config addr.toNat with
    | none => s.answered (.write .error)
    | some l =>
      if l.readOnly then s.answered (.write .error)
      else if s.busy && !l.acceptedWhileBusy then
        { s with status := s.status.overrun, answer := some (.write .ok) }
      else (s.store l v).answered (.write .ok)
  else s.answered (.write .error)

/-- One host transaction (R60). -/
def hostStep (t : Transaction) (s : State) : State :=
  match t with
  | .read addr be => hostRead addr be s
  | .write addr be v => hostWrite addr be v s

end Sys2Proof.Machine
end

