-- ==== Sys2Proof/Machine/Agents.lean ====
section
/-! DEFINITION. What each event of the schedule does (R15, R72, R240). -/

namespace Sys2Proof.Machine

/-- R15, R72: one step of one agent, or an edge of the reset input. While rst_n is 0 the block performs no transaction
and answers none (R240). -/
def handle (e : Event) (s : State) : Result :=
  match e with
  | .host t => if s.rstN then .next (hostStep t s) else .next s
  | .complete => if s.rstN then completeStep s else .next s
  | .resetEdge => .next (resetEdge s)
  | .resetRelease => .next (resetRelease s)

/-- A state at the start of a step: no transaction answered yet. -/
def State.unanswered (s : State) : State := { s with answer := none }

/-- The next event of the schedule. When none is left the host does nothing more, and a busy engine completes (R16); an
idle block does nothing (R224). Log 4. -/
def advance (s : State) : Result :=
  match s.schedule with
  | [] => handle .complete s.unanswered
  | e :: rest => handle e { s with schedule := rest, answer := none }

end Sys2Proof.Machine
end

