-- ==== Sys2Proof/Machine/Step.lean ====
section
/-! DEFINITION. One step of the machine, and a state whose next step runs a given command. -/

namespace Sys2Proof.Machine

/-- One step: the next event of the one interleaving of R72. -/
def step (s : State) : Host.Outcome State Fault Refusal := Sys2Proof.Machine.advance s

/-- s with the command word w issued (R120: what a host write of w to CMD does to the idle block), out of reset, and its
completion scheduled next, so that the next step runs exactly that command. Log 12. -/
def State.withFetchWord (s : State) (nbits w : Nat) : State :=
  { s.issue (BitVec.ofNat 32 (w % 2 ^ nbits)) with rstN := true, schedule := .complete :: s.schedule }

end Sys2Proof.Machine
end

