-- ==== Sys2Proof/Safety.lean ====
section
/-! DEFINITION. The terms the statements are made in: what a completion writes, what makes a command's inputs good, the
relations of a valid context (R45), the invariant of the machine, and the words R95–R99 call illegal. -/

namespace Sys2Proof

/-! ### Classes of commands -/

/-- The scalar class of R94. -/
def Instr.isScalar : Instr → Bool
  | .nop => false
  | .madd _ _ _ => true
  | .msub _ _ _ => true
  | .mmul _ _ _ => true
  | .mpow _ _ _ => true
  | .minv _ _ => true
  | .bfly _ _ _ => true
  | .ctxset => false
  | .bitrev _ _ => false
  | .ntt _ _ => false
  | .intt _ _ => false
  | .pmul _ _ _ => false
  | .pscale _ _ => false
  | .twist _ _ => false
  | .untwist _ _ => false
  | .nconv _ _ _ => false

/-- The registers a scalar command reads as field elements (R141–R145, R161). -/
def Instr.fieldElements : Instr → List RegIx
  | .nop => []
  | .madd _ a b => [a, b]
  | .msub _ a b => [a, b]
  | .mmul _ a b => [a, b]
  | .mpow _ a _ => [a]
  | .minv _ a => [a]
  | .bfly w a b => [w, a, b]
  | .ctxset => []
  | .bitrev _ _ => []
  | .ntt _ _ => []
  | .intt _ _ => []
  | .pmul _ _ _ => []
  | .pscale _ _ => []
  | .twist _ _ => []
  | .untwist _ _ => []
  | .nconv _ _ _ => []

/-- The buffers whose words a polynomial command checks (R131). -/
def Instr.checkedSources : Instr → List BufIx
  | .nop => []
  | .madd _ _ _ => []
  | .msub _ _ _ => []
  | .mmul _ _ _ => []
  | .mpow _ _ _ => []
  | .minv _ _ => []
  | .bfly _ _ _ => []
  | .ctxset => []
  | .bitrev _ _ => []
  | .ntt _ a => [a]
  | .intt _ a => [a]
  | .pmul _ a b => [a, b]
  | .pscale _ a => [a]
  | .twist _ a => [a]
  | .untwist _ a => [a]
  | .nconv _ a b => [a, b]

end Sys2Proof

namespace Sys2Proof.Machine

/-! ### Completions -/

/-- R124, R125: the completion writes of a command that succeeded. -/
def State.afterOk (s : State) : State :=
  { s with status := { s.status with done := true, lastCode := 0 }, engine := .idle }

/-- R123, R125: the completion writes of a command that raised an error. -/
def State.afterError (s : State) (code : BitVec 4) : State :=
  { s with status := { s.status with done := true, err := true, lastCode := code }, engine := .idle }

/-- The life of one command with a wait after it: its word is issued to the idle block, and it completes. -/
def command (i : Instr) (s : State) : Result := completeStep (s.issue (encode i))

/-- R128: t is s after a success that wrote at most words 0..n−1 of buffer d. Every register is as s has it but for the
completion writes, and so is every byte of P, TW and TWI outside those words. -/
def WritesOnlyBuffer (s t : State) (d : BufIx) : Prop :=
  t = { s.afterOk with mem := t.mem } ∧
  ∀ k, k < bufBase d ∨ bufBase d + 4 * s.n.toNat ≤ k → t.mem.readByte k = s.mem.readByte k

/-! ### Inputs -/

/-- R129: Q is a usable modulus for a scalar command. -/
def State.ScalarReady (s : State) : Prop := 3 ≤ s.q.toNat ∧ s.q.toNat % 2 = 1

/-- R131: words 0..n−1 of a buffer are field elements. -/
def State.PolyReady (s : State) (b : BufIx) : Prop := ∀ i < s.n.toNat, (s.poly b i).toNat < s.q.toNat

/-- N is a power of two with 1 ≤ N ≤ NMAX (R6, R180). -/
def State.DegreeOk (s : State) : Prop := (∃ k, s.n.toNat = 2 ^ k) ∧ s.n.toNat ≤ s.config.nmax

/-- R180: the parameters CTXSET accepts. -/
def State.ParametersOk (s : State) : Prop :=
  s.DegreeOk ∧ 3 ≤ s.q.toNat ∧ (s.q.toNat - 1) % (2 * s.n.toNat) = 0 ∧ s.omega.toNat < s.q.toNat

/-- R181: the roots CTXSET accepts. -/
def State.RootOk (s : State) : Prop :=
  s.omega.toNat ^ (2 * s.n.toNat) % s.q.toNat = 1 ∧ s.omega.toNat ^ s.n.toNat % s.q.toNat = s.q.toNat - 1

/-! ### The context and the invariant -/

/-- R45: the relations of a valid context. -/
structure State.ContextOk (s : State) : Prop where
  parameters : s.ParametersOk
  root : s.RootOk
  omegaInv : s.omegaInv.toNat = s.omega.toNat ^ (s.q.toNat - 2) % s.q.toNat
  omegaN : s.omegaN.toNat = s.omega.toNat ^ 2 % s.q.toNat
  omegaNInv : s.omegaNInv.toNat = s.omegaInv.toNat ^ 2 % s.q.toNat
  nInv : s.nInv.toNat = s.n.toNat ^ (s.q.toNat - 2) % s.q.toNat
  tw : ∀ i < s.n.toNat, (s.tw i).toNat = s.omega.toNat ^ i % s.q.toNat
  twi : ∀ i < s.n.toNat, (s.twi i).toNat = s.omegaInv.toNat ^ i % s.q.toNat

/-- A host offset that holds a byte of P, TW or TWI (R62, R66, R67). -/
def mapped (cfg : Config) (k : Nat) : Prop := 0x4000 ≤ k ∧ k < 0xA000 ∧ k / 4 % 1024 < cfg.nmax

/-- The offsets of R250: the words a read during a busy period does not give (x, P, TW, TWI and the derived registers). -/
def ResultOffset (cfg : Config) (a : Nat) : Prop :=
  a % 4 = 0 ∧ (a ∈ [0x0020, 0x0024, 0x0028, 0x002C] ∨ (0x0040 ≤ a ∧ a ≤ 0x007C) ∨
    (0x4000 ≤ a ∧ a ≤ 0x9FFF ∧ a / 4 % 1024 < cfg.nmax))

/-- What holds in every state of the block. -/
structure State.Inv (s : State) : Prop where
  /-- the memory has its canonical form -/
  memory : s.mem.wf
  /-- only bytes of P, TW and TWI have contents -/
  windows : ∀ c ∈ s.mem, mapped s.config c.1
  /-- CMD holds the running command (R46, R120, R121) -/
  command : ∀ c, s.engine = .busy c → s.cmd = c ∧ s.status.done = false
  /-- the reserved codes are never reported (R210) -/
  code : s.status.lastCode ∈ [0#4, 1#4, 2#4, 3#4, 6#4, 7#4]
  /-- R45 -/
  context : s.status.ctxValid = true → s.ContextOk
  /-- R240: in reset every register is at its reset value -/
  inReset : s.rstN = false → s = { State.reset with
    config := s.config, mem := s.mem, rstN := false, schedule := s.schedule, answer := s.answer, draws := s.draws }

/-! ### Transforms -/

/-- Word k of the length-n transform of f with root r: (Σ_j f j · r^(jk)) mod q (R164, R165). -/
def transformSum (n q r : Nat) (f : Nat → Nat) (k : Nat) : Nat := (∑ j ∈ Finset.range n, f j * r ^ (j * k)) % q

/-! ### Illegal words -/

/-- The words of R95–R99, in the arithmetic of R91's fields. -/
def IllegalWord (c : Word) : Prop :=
  let opc := c.toNat % 256
  let fa := c.toNat / 256 % 16
  let fb := c.toNat / 4096 % 16
  let fc := c.toNat / 65536 % 16
  c.toNat / 2 ^ 20 ≠ 0
  ∨ (0x07 ≤ opc ∧ opc ≤ 0x0F) ∨ 0x19 ≤ opc
  ∨ ((opc = 0x00 ∨ opc = 0x10) ∧ (fa ≠ 0 ∨ fb ≠ 0 ∨ fc ≠ 0))
  ∨ (opc ∈ [0x05, 0x11, 0x12, 0x13, 0x15, 0x16, 0x17] ∧ fc ≠ 0)
  ∨ ((0x11 ≤ opc ∧ opc ≤ 0x18) ∧ (4 ≤ fa ∨ 4 ≤ fb))
  ∨ ((opc = 0x14 ∨ opc = 0x18) ∧ 4 ≤ fc)
  ∨ (opc = 0x06 ∧ fb = fc)

end Sys2Proof.Machine
end

