-- ==== Sys2Proof/Certificates/Slice0/Obligations.lean ====
section
/-! DEFINITION. The statements for the provers, from the numbered rules of spec/. -/

open Sys2Proof Sys2Proof.Machine

/-! ### Encoding -/

/-- R102, R132 and the examples of the family rules: the words the spec writes out. -/
def Obligations.DecodesTheWordsOfTheSpec : Prop :=
  decode 0x00000000#32 = .ok .nop ∧ decode 0x00032101#32 = .ok (.madd 1 2 3) ∧
  decode 0x00032102#32 = .ok (.msub 1 2 3) ∧ decode 0x00032103#32 = .ok (.mmul 1 2 3) ∧
  decode 0x00032104#32 = .ok (.mpow 1 2 3) ∧ decode 0x00002105#32 = .ok (.minv 1 2) ∧
  decode 0x00021006#32 = .ok (.bfly 0 1 2) ∧ decode 0x00000010#32 = .ok .ctxset ∧
  decode 0x00000111#32 = .ok (.bitrev 1 0) ∧ decode 0x00000112#32 = .ok (.ntt 1 0) ∧
  decode 0x00001213#32 = .ok (.intt 2 1) ∧ decode 0x00010214#32 = .ok (.pmul 2 0 1) ∧
  decode 0x00002215#32 = .ok (.pscale 2 2) ∧ decode 0x00000216#32 = .ok (.twist 2 0) ∧
  decode 0x00000217#32 = .ok (.untwist 2 0) ∧ decode 0x00010218#32 = .ok (.nconv 2 0 1)

/-- R91, R94: no operand is lost between the encoder and the decoder. -/
def Obligations.DecodeOfEncodeIsTheInstruction : Prop :=
  ∀ i : Instr, i.wf = true → decode (encode i) = .ok i

/-- R100, R101: a word has one meaning, and a word that decodes is the encoding of a well-formed command. -/
def Obligations.EncodeOfDecodeIsTheWord : Prop :=
  ∀ (c : Word) (i : Instr), decode c = .ok i → i.wf = true ∧ encode i = c

/-- R95–R99: exactly these words are illegal. One that is issued to the idle block ends its busy period with code 6 and
changes nothing else but CMD. -/
def Obligations.IllegalWordsCompleteWithIllegalCommand : Prop :=
  ∀ c : Word,
    ((∃ i, decode c = .ok i) ↔ ¬ IllegalWord c) ∧
    (IllegalWord c → ∀ s : State, s.engine = .idle →
      completeStep (hostStep (.write 0x0004 0b1111 c) s) =
        .next ({ s with cmd := c, answer := some (.write .ok) }.afterError 6))

/-- R11: bit j of rev_k(i) is bit k−1−j of i, rev_0(0) = 0, and log2 of 2^k is k. -/
def Obligations.BitReversalReversesTheBits : Prop :=
  (∀ k i j : Nat, i < 2 ^ k → j < k → (bitRev k i).testBit j = i.testBit (k - 1 - j)) ∧
  (∀ k i : Nat, i < 2 ^ k → bitRev k i < 2 ^ k) ∧ bitRev 0 0 = 0 ∧ ∀ k : Nat, Nat.log2 (2 ^ k) = k

/-! ### Steps -/

/-- R15, R72, R122: a step takes the next event and does what its rule says. That the events still to come are a list in
the state, and that a busy engine completes when the list is empty, is the model's choice (log 4). The completion runs
exec on the state at completion, which the model deduces to agree with the state at issue (log 5). An Illegal word
completes with code 6 (R95–R99). That reset is an edge and a release is deduced (log 7), and that an event which cannot
happen is passed over is the model's choice (log 6). Each step takes its event off the list and clears the answer
(log 11). -/
def Obligations.StepRunsTheDecodedCommand : Prop :=
  (∀ (s : State) (c : Word) (i : Instr), s.rstN = true → s.engine = .busy c → decode c = .ok i →
    (s.schedule = [] → step s = exec i { s with answer := none }) ∧
    (∀ rest, s.schedule = .complete :: rest → step s = exec i { s with schedule := rest, answer := none })) ∧
  (∀ (s : State) (c : Word), s.rstN = true → s.engine = .busy c → (∀ i, decode c ≠ .ok i) →
    (s.schedule = [] → step s = .next ({ s with answer := none }.afterError 6)) ∧
    (∀ rest, s.schedule = .complete :: rest →
      step s = .next ({ s with schedule := rest, answer := none }.afterError 6))) ∧
  (∀ (s : State) (tr : Transaction) (rest : List Event), s.rstN = true → s.schedule = .host tr :: rest →
    step s = .next (hostStep tr { s with schedule := rest, answer := none })) ∧
  (∀ (s : State) (rest : List Event), s.schedule = .resetEdge :: rest →
    step s = .next (resetEdge { s with schedule := rest, answer := none })) ∧
  (∀ (s : State) (rest : List Event), s.schedule = .resetRelease :: rest →
    step s = .next { s with schedule := rest, answer := none, rstN := true }) ∧
  (∀ (s : State) (tr : Transaction) (rest : List Event),
    (s.rstN = false ∧ s.schedule = .host tr :: rest) ∨
      ((s.rstN = false ∨ s.engine = .idle) ∧ s.schedule = .complete :: rest) →
    step s = .next { s with schedule := rest, answer := none })

/-- R125, R211, R214: nothing stops the block. -/
def Obligations.EveryStepAnswersANextState : Prop :=
  (∀ s : State, ∃ t, step s = .next t) ∧ ∀ (i : Instr) (s : State), ∃ t, exec i s = .next t

/-- R120: a write of any word to CMD while the engine is Idle issues it. -/
def Obligations.WriteToIdleCmdIssues : Prop :=
  ∀ (s : State) (c : Word), s.engine = .idle →
    hostStep (.write 0x0004 0b1111 c) s =
      { s with cmd := c, engine := .busy c, status := { s.status with done := false }, answer := some (.write .ok) }

/-- R121: a write to CMD while Busy is ignored, sets OVR and gets OK. -/
def Obligations.WriteToBusyCmdIsIgnored : Prop :=
  ∀ (s : State) (c0 c : Word), s.engine = .busy c0 →
    hostStep (.write 0x0004 0b1111 c) s =
      { s with status := { s.status with ovr := true }, answer := some (.write .ok) }

/-- R224: an idle block with no host transaction does nothing. That an empty schedule is this case is log 4. -/
def Obligations.IdleBlockWaits : Prop :=
  ∀ s : State, s.engine = .idle → s.schedule = [] → step s = .next { s with answer := none }

/-! ### Every completion -/

/-- R123, R211: a command that failed wrote LASTCODE, ERR and the common completion writes, and nothing else. -/
def Obligations.FailedCommandWritesOnlyStatus : Prop :=
  ∀ (i : Instr) (s t : State), exec i s = .next t → t.status.lastCode ≠ 0 → t = s.afterError t.status.lastCode

/-- R124, R125, R29, R30: every completion. -/
def Obligations.EveryCompletionSetsDoneAndIdles : Prop :=
  ∀ (i : Instr) (s : State), ∃ t, exec i s = .next t ∧ t.engine = .idle ∧ t.status.done = true ∧
    t.status.ovr = s.status.ovr ∧ t.status.err = (s.status.err || t.status.lastCode != 0) ∧
    t.statusWord.getLsbD 0 = false

/-- R210: which command can report which code. -/
def Obligations.EachCommandRaisesOnlyItsErrors : Prop :=
  ∀ (i : Instr) (s t : State), exec i s = .next t →
    t.status.lastCode ∈ [0#4, 1#4, 2#4, 3#4, 6#4, 7#4] ∧
    (t.status.lastCode = 1 → ∃ d a, i = .minv d a) ∧
    (t.status.lastCode = 2 → i.isScalar = true ∨ i = .ctxset ∨ i.checkedSources ≠ []) ∧
    (t.status.lastCode = 3 → i = .ctxset) ∧
    (t.status.lastCode = 6 → i.wf = false) ∧
    (t.status.lastCode = 7 → ∃ d, polyDest i = some d)

/-- R25, R34–R37, R22, R39–R42, R191: what no command writes. -/
def Obligations.NoCommandWritesTheHostRegisters : Prop :=
  ∀ (i : Instr) (s t : State), exec i s = .next t →
    (t.q = s.q ∧ t.n = s.n ∧ t.omega = s.omega ∧ t.cmd = s.cmd ∧ t.irqEn = s.irqEn ∧ t.config = s.config ∧
      t.rstN = s.rstN ∧ t.schedule = s.schedule ∧ t.answer = s.answer ∧ t.draws = s.draws) ∧
    (i.isScalar = false → t.x = s.x) ∧
    (polyDest i = none → i ≠ .ctxset → t.mem = s.mem) ∧
    (i ≠ .ctxset → t.omegaInv = s.omegaInv ∧ t.omegaN = s.omegaN ∧ t.omegaNInv = s.omegaNInv ∧ t.nInv = s.nInv ∧
      t.status.ctxValid = s.status.ctxValid)

/-! ### Scalar commands -/

/-- R132: NOP does nothing but complete. -/
def Obligations.NopOnlyCompletes : Prop := ∀ s : State, exec .nop s = .next s.afterOk

/-- R141, R140: MADD writes (a + b) mod q, exact, and nothing else. -/
def Obligations.MaddAddsModQ : Prop :=
  ∀ (d a b : RegIx) (s : State), s.ScalarReady → (s.readX a).toNat < s.q.toNat → (s.readX b).toNat < s.q.toNat →
    ∃ t, exec (.madd d a b) s = .next t ∧ t = { s.afterOk with x := t.x } ∧
      (t.readX d).toNat = ((s.readX a).toNat + (s.readX b).toNat) % s.q.toNat ∧
      ∀ r, r ≠ d → t.readX r = s.readX r

/-- R142: MSUB writes the mathematical (a − b) mod q, and nothing else. -/
def Obligations.MsubSubtractsModQ : Prop :=
  ∀ (d a b : RegIx) (s : State), s.ScalarReady → (s.readX a).toNat < s.q.toNat → (s.readX b).toNat < s.q.toNat →
    ∃ t, exec (.msub d a b) s = .next t ∧ t = { s.afterOk with x := t.x } ∧
      ((t.readX d).toNat : Int) = (((s.readX a).toNat : Int) - (s.readX b).toNat) % s.q.toNat ∧
      ∀ r, r ≠ d → t.readX r = s.readX r

/-- R143, R140: MMUL writes (a · b) mod q from the full product, and nothing else. -/
def Obligations.MmulMultipliesModQ : Prop :=
  ∀ (d a b : RegIx) (s : State), s.ScalarReady → (s.readX a).toNat < s.q.toNat → (s.readX b).toNat < s.q.toNat →
    ∃ t, exec (.mmul d a b) s = .next t ∧ t = { s.afterOk with x := t.x } ∧
      (t.readX d).toNat = (s.readX a).toNat * (s.readX b).toNat % s.q.toNat ∧
      ∀ r, r ≠ d → t.readX r = s.readX r

/-- R144, R9: MPOW writes (a ^ e) mod q for every 32-bit exponent, with a ^ 0 = 1, and nothing else. -/
def Obligations.MpowRaisesModQ : Prop :=
  ∀ (d a e : RegIx) (s : State), s.ScalarReady → (s.readX a).toNat < s.q.toNat →
    ∃ t, exec (.mpow d a e) s = .next t ∧ t = { s.afterOk with x := t.x } ∧
      (t.readX d).toNat = (s.readX a).toNat ^ (s.readX e).toNat % s.q.toNat ∧
      ∀ r, r ≠ d → t.readX r = s.readX r

/-- R145: MINV writes a^(q−2) mod q and nothing else; an operand of 0 raises NotInvertible. -/
def Obligations.MinvRaisesToQMinusTwo : Prop :=
  ∀ (d a : RegIx) (s : State), s.ScalarReady →
    (0 < (s.readX a).toNat → (s.readX a).toNat < s.q.toNat →
      ∃ t, exec (.minv d a) s = .next t ∧ t = { s.afterOk with x := t.x } ∧
        (t.readX d).toNat = (s.readX a).toNat ^ (s.q.toNat - 2) % s.q.toNat ∧
        ∀ r, r ≠ d → t.readX r = s.readX r) ∧
    ((s.readX a).toNat = 0 → exec (.minv d a) s = .next (s.afterError 1))

/-- R160, R161: BFLY writes (a + w·b) mod q and (a − w·b) mod q from the old values, and nothing else. FA may be any
register. -/
def Obligations.BflyIsTheButterfly : Prop :=
  ∀ (w a b : RegIx) (s : State), a ≠ b → s.ScalarReady → (s.readX w).toNat < s.q.toNat →
    (s.readX a).toNat < s.q.toNat → (s.readX b).toNat < s.q.toNat →
    ∃ t, exec (.bfly w a b) s = .next t ∧ t = { s.afterOk with x := t.x } ∧
      (t.readX a).toNat = ((s.readX a).toNat + (s.readX w).toNat * (s.readX b).toNat) % s.q.toNat ∧
      ((t.readX b).toNat : Int) =
        (((s.readX a).toNat : Int) - (s.readX w).toNat * (s.readX b).toNat) % s.q.toNat ∧
      ∀ r, r ≠ a → r ≠ b → t.readX r = s.readX r

/-- R129: the checks of the scalar class, for every scalar command. A bad modulus or an operand that is not below q raises
InvalidInput. When both checks pass the command succeeds, with or without a context, but for MINV of 0 (R145). -/
def Obligations.ScalarCommandsCheckModulusAndOperands : Prop :=
  ∀ (i : Instr) (s : State), i.isScalar = true → i.wf = true →
    ((s.q.toNat < 3 ∨ s.q.toNat % 2 = 0 ∨ ∃ r ∈ i.fieldElements, s.q.toNat ≤ (s.readX r).toNat) →
      exec i s = .next (s.afterError 2)) ∧
    ((s.ScalarReady ∧ ∀ r ∈ i.fieldElements, (s.readX r).toNat < s.q.toNat) →
      ∃ t, exec i s = .next t ∧
        (t.status.lastCode = 0 ∨ ∃ d a, i = .minv d a ∧ (s.readX a).toNat = 0 ∧ t.status.lastCode = 1))

/-- R146: if q is prime and 0 < a < q, the result of MINV is the one inverse of a in [0, q). -/
def Obligations.MinvOfPrimeModulusIsTheInverse : Prop :=
  ∀ (d a : RegIx) (s : State), s.ScalarReady → s.q.toNat.Prime → 0 < (s.readX a).toNat →
    (s.readX a).toNat < s.q.toNat →
    ∃ t, exec (.minv d a) s = .next t ∧ (t.readX d).toNat < s.q.toNat ∧
      ((s.readX a).toNat * (t.readX d).toNat) % s.q.toNat = 1 ∧
      ∀ r, r < s.q.toNat → ((s.readX a).toNat * r) % s.q.toNat = 1 → r = (t.readX d).toNat

/-- R243: while Q = 0 and there is no context, as after reset, no scalar and no polynomial command succeeds. -/
def Obligations.WithoutModulusAndContextCommandsFail : Prop :=
  State.reset.q = 0 ∧ State.reset.status.ctxValid = false ∧
  ∀ (i : Instr) (s : State), i.wf = true → s.q = 0 → s.status.ctxValid = false →
    (i.isScalar = true → exec i s = .next (s.afterError 2)) ∧
    (∀ d, polyDest i = some d → exec i s = .next (s.afterError 7))

/-! ### The context -/

/-- R182: when the checks pass, CTXSET writes the derived registers, TW[0..n−1], TWI[0..n−1] and CTXVALID, and nothing
else. -/
def Obligations.CtxsetBuildsTheContext : Prop :=
  ∀ s : State, s.ParametersOk → s.RootOk →
    ∃ t, exec .ctxset s = .next t ∧
      t = { s.afterOk with
        omegaInv := t.omegaInv, omegaN := t.omegaN, omegaNInv := t.omegaNInv, nInv := t.nInv, mem := t.mem
        status := { s.status with done := true, ctxValid := true, lastCode := 0 } } ∧
      t.omegaInv.toNat = s.omega.toNat ^ (s.q.toNat - 2) % s.q.toNat ∧
      t.omegaN.toNat = s.omega.toNat * s.omega.toNat % s.q.toNat ∧
      t.omegaNInv.toNat = t.omegaInv.toNat * t.omegaInv.toNat % s.q.toNat ∧
      t.nInv.toNat = s.n.toNat ^ (s.q.toNat - 2) % s.q.toNat ∧
      (∀ i < s.n.toNat, (t.tw i).toNat = s.omega.toNat ^ i % s.q.toNat) ∧
      (∀ i < s.n.toNat, (t.twi i).toNat = t.omegaInv.toNat ^ i % s.q.toNat) ∧
      ∀ k, (k < 0x8000 ∨ 0x8000 + 4 * s.n.toNat ≤ k) → (k < 0x9000 ∨ 0x9000 + 4 * s.n.toNat ≤ k) →
        t.mem.readByte k = s.mem.readByte k

/-- R180: bad parameters raise InvalidInput. -/
def Obligations.CtxsetChecksItsParameters : Prop :=
  ∀ s : State, ¬ s.ParametersOk → exec .ctxset s = .next (s.afterError 2)

/-- R181: with good parameters, a bad root raises InvalidRoot. -/
def Obligations.CtxsetChecksItsRoot : Prop :=
  ∀ s : State, s.ParametersOk → ¬ s.RootOk → exec .ctxset s = .next (s.afterError 3)

/-- R180, R31: a CTXSET that fails leaves CTXVALID 0, because it was 0. -/
def Obligations.FailedCtxsetLeavesNoContext : Prop :=
  ∀ s t : State, s.Inv → exec .ctxset s = .next t → t.status.lastCode ≠ 0 →
    s.status.ctxValid = false ∧ t.status.ctxValid = false

/-- R45: in a valid context ω has multiplicative order exactly 2n modulo q, for any q. -/
def Obligations.ContextRootHasOrderTwoN : Prop :=
  ∀ s : State, s.ContextOk → orderOf (s.omega.toNat : ZMod s.q.toNat) = 2 * s.n.toNat

/-! ### Polynomial commands -/

/-- R162, R128: BITREV, with no check on the words. -/
def Obligations.BitrevPermutes : Prop :=
  ∀ (d a : BufIx) (s : State) (k : Nat), s.status.ctxValid = true → s.n.toNat = 2 ^ k →
    ∃ t, exec (.bitrev d a) s = .next t ∧ WritesOnlyBuffer s t d ∧
      ∀ i < s.n.toNat, t.poly d i = s.poly a (bitRev k i)

/-- R164, R128: NTT, with root OMEGA_N, in natural order. -/
def Obligations.NttIsTheForwardSum : Prop :=
  ∀ (d a : BufIx) (s : State), s.status.ctxValid = true → s.PolyReady a →
    ∃ t, exec (.ntt d a) s = .next t ∧ WritesOnlyBuffer s t d ∧
      ∀ k < s.n.toNat, (t.poly d k).toNat =
        (∑ j ∈ Finset.range s.n.toNat, (s.poly a j).toNat * s.omegaN.toNat ^ (j * k)) % s.q.toNat

/-- R165, R128: INTT, with root OMEGA_N_INV, not scaled. -/
def Obligations.InttIsTheInverseSum : Prop :=
  ∀ (d a : BufIx) (s : State), s.status.ctxValid = true → s.PolyReady a →
    ∃ t, exec (.intt d a) s = .next t ∧ WritesOnlyBuffer s t d ∧
      ∀ i < s.n.toNat, (t.poly d i).toNat =
        (∑ k ∈ Finset.range s.n.toNat, (s.poly a k).toNat * s.omegaNInv.toNat ^ (i * k)) % s.q.toNat

/-- R183, R128: PMUL. -/
def Obligations.PmulMultipliesPointwise : Prop :=
  ∀ (d a b : BufIx) (s : State), s.status.ctxValid = true → s.PolyReady a → s.PolyReady b →
    ∃ t, exec (.pmul d a b) s = .next t ∧ WritesOnlyBuffer s t d ∧
      ∀ k < s.n.toNat, (t.poly d k).toNat = (s.poly a k).toNat * (s.poly b k).toNat % s.q.toNat

/-- R184, R185, R186, R128: PSCALE, TWIST and UNTWIST multiply word i by N_INV, TW[i], and N_INV · TWI[i]. -/
def Obligations.ScalingCommandsMultiplyEachWord : Prop :=
  ∀ (d a : BufIx) (s : State), s.status.ctxValid = true → s.PolyReady a →
    (∃ t, exec (.pscale d a) s = .next t ∧ WritesOnlyBuffer s t d ∧
      ∀ i < s.n.toNat, (t.poly d i).toNat = (s.poly a i).toNat * s.nInv.toNat % s.q.toNat) ∧
    (∃ t, exec (.twist d a) s = .next t ∧ WritesOnlyBuffer s t d ∧
      ∀ i < s.n.toNat, (t.poly d i).toNat = (s.poly a i).toNat * (s.tw i).toNat % s.q.toNat) ∧
    (∃ t, exec (.untwist d a) s = .next t ∧ WritesOnlyBuffer s t d ∧
      ∀ i < s.n.toNat, (t.poly d i).toNat =
        (s.poly a i).toNat * s.nInv.toNat * (s.twi i).toNat % s.q.toNat)

/-- R187, R128: NCONV is the five steps, and writes only its result. -/
def Obligations.NconvIsTheFiveSteps : Prop :=
  ∀ (d a b : BufIx) (s : State), s.status.ctxValid = true → s.PolyReady a → s.PolyReady b →
    let n := s.n.toNat
    let q := s.q.toNat
    let a' := fun i => (s.poly a i).toNat * (s.tw i).toNat % q
    let b' := fun i => (s.poly b i).toNat * (s.tw i).toNat % q
    let c := fun k => transformSum n q s.omegaN.toNat a' k * transformSum n q s.omegaN.toNat b' k % q
    let c' := transformSum n q s.omegaNInv.toNat c
    ∃ t, exec (.nconv d a b) s = .next t ∧ WritesOnlyBuffer s t d ∧
      ∀ i < n, (t.poly d i).toNat = c' i * s.nInv.toNat * (s.twi i).toNat % q

/-- R130: every polynomial command raises NoContext while CTXVALID is 0. -/
def Obligations.PolynomialCommandsNeedAContext : Prop :=
  ∀ (i : Instr) (d : BufIx) (s : State), polyDest i = some d → s.status.ctxValid = false →
    exec i s = .next (s.afterError 7)

/-- R131: a source word that is not below q raises InvalidInput, for every source a polynomial command checks. BITREV
checks none. -/
def Obligations.PolynomialCommandsCheckTheirSources : Prop :=
  ∀ (i : Instr) (s : State), s.status.ctxValid = true →
    (∀ b ∈ i.checkedSources, (∃ k < s.n.toNat, s.q.toNat ≤ (s.poly b k).toNat) → exec i s = .next (s.afterError 2)) ∧
    (∀ d a, i = .bitrev d a → ∃ t, exec i s = .next t ∧ t.status.lastCode = 0)

/-- R162: applying BITREV twice gives the identity. -/
def Obligations.BitrevTwiceIsTheIdentity : Prop :=
  ∀ (d e a : BufIx) (s : State), s.status.ctxValid = true → s.ContextOk →
    ∃ s1 s2, command (.bitrev d a) s = .next s1 ∧ command (.bitrev e d) s1 = .next s2 ∧
      ∀ i < s.n.toNat, s2.poly e i = s.poly a i

/-- R167: for prime q and a valid context, INTT of NTT is n times the source modulo q, and PSCALE gives the source
back. -/
def Obligations.InverseTransformScaledIsTheIdentity : Prop :=
  ∀ (d e f a : BufIx) (s : State), s.status.ctxValid = true → s.ContextOk → s.q.toNat.Prime → s.PolyReady a →
    ∃ s1 s2 s3, command (.ntt d a) s = .next s1 ∧ command (.intt e d) s1 = .next s2 ∧
      command (.pscale f e) s2 = .next s3 ∧
      (∀ i < s.n.toNat, (s2.poly e i).toNat = s.n.toNat * (s.poly a i).toNat % s.q.toNat) ∧
      ∀ i < s.n.toNat, s3.poly f i = s.poly a i

/-- R188: for prime q and a valid context, NCONV is the product modulo (xⁿ + 1) and modulo q. -/
def Obligations.NconvIsTheNegacyclicProduct : Prop :=
  ∀ (d a b : BufIx) (s : State), s.status.ctxValid = true → s.ContextOk → s.q.toNat.Prime → s.PolyReady a →
    s.PolyReady b →
    ∃ t, exec (.nconv d a b) s = .next t ∧ ∀ k < s.n.toNat,
      ((t.poly d k).toNat : Int) =
        (∑ i ∈ Finset.range s.n.toNat, ∑ j ∈ Finset.range s.n.toNat,
          (if i + j = k then ((s.poly a i).toNat * (s.poly b j).toNat : Int)
            else if i + j = k + s.n.toNat then -((s.poly a i).toNat * (s.poly b j).toNat : Int)
            else 0)) % s.q.toNat

/-- R189: NCONV gives the same words as the sequence of the seven commands, with a wait after each. -/
def Obligations.NconvEqualsItsCommandSequence : Prop :=
  ∀ (d a b t1 t2 : BufIx) (s : State), s.status.ctxValid = true → s.ContextOk → s.PolyReady a → s.PolyReady b →
    t1 ≠ a → t1 ≠ b → t2 ≠ a → t2 ≠ b → t1 ≠ t2 →
    ∃ s1 s2 s3 s4 s5 s6 s7 t,
      command (.twist t1 a) s = .next s1 ∧ command (.twist t2 b) s1 = .next s2 ∧
      command (.ntt t1 t1) s2 = .next s3 ∧ command (.ntt t2 t2) s3 = .next s4 ∧
      command (.pmul t1 t1 t2) s4 = .next s5 ∧ command (.intt t1 t1) s5 = .next s6 ∧
      command (.untwist d t1) s6 = .next s7 ∧ command (.nconv d a b) s = .next t ∧
      ∀ i < s.n.toNat, t.poly d i = s7.poly d i

/-- R166: in every valid context, for every q, the butterfly network of R163 gives the sums of R164 and R165. That `net`
computes each stage from the sequence before it, where R163 replaces pairs in a loop, is deduced (log 21). -/
def Obligations.ButterflyNetworkEqualsTheSums : Prop :=
  ∀ (s : State) (ys : List Nat), s.ContextOk → ys.length = s.n.toNat → (∀ y ∈ ys, y < s.q.toNat) →
    ∀ k < s.n.toNat,
      (net s.q.toNat s.twiddles ys).getD k 0 =
        transformSum s.n.toNat s.q.toNat s.omegaN.toNat (fun j => ys.getD j 0) k ∧
      (net s.q.toNat s.inverseTwiddles ys).getD k 0 =
        transformSum s.n.toNat s.q.toNat s.omegaNInv.toNat (fun j => ys.getD j 0) k

/-! ### The host port -/

/-- R61: a partial or misaligned transaction gets ERROR and changes no state; a read returns 0. -/
def Obligations.PartialOrMisalignedAccessIsRejected : Prop :=
  ∀ (addr : BitVec 16) (be : BitVec 4) (v : Word) (s : State), be ≠ 0b1111 ∨ addr.toNat % 4 ≠ 0 →
    hostStep (.read addr be) s = { s with answer := some (.read 0 .error) } ∧
    hostStep (.write addr be v) s = { s with answer := some (.write .error) }

/-- R63: a reserved offset, or an index of NMAX or more, gets ERROR and changes no state; a read returns 0. -/
def Obligations.ReservedOffsetIsRejected : Prop :=
  ∀ (addr : BitVec 16) (v : Word) (s : State), addr.toNat % 4 = 0 →
    (addr.toNat = 0x001C ∨ (0x0030 ≤ addr.toNat ∧ addr.toNat ≤ 0x003C) ∨
      (0x0080 ≤ addr.toNat ∧ addr.toNat ≤ 0x3FFF) ∨ 0xA000 ≤ addr.toNat ∨
      (0x4000 ≤ addr.toNat ∧ addr.toNat ≤ 0x9FFF ∧ s.config.nmax ≤ addr.toNat / 4 % 1024)) →
    hostStep (.read addr 0b1111) s = { s with answer := some (.read 0 .error) } ∧
    hostStep (.write addr 0b1111 v) s = { s with answer := some (.write .error) }

/-- R64: a write to a read-only location gets ERROR and changes no state, busy or not. -/
def Obligations.ReadOnlyWriteIsRejected : Prop :=
  ∀ (addr : BitVec 16) (be : BitVec 4) (v : Word) (s : State),
    (addr.toNat ∈ [0x0000, 0x0020, 0x0024, 0x0028, 0x002C] ∨ (0x8000 ≤ addr.toNat ∧ addr.toNat ≤ 0x9FFF)) →
    hostStep (.write addr be v) s = { s with answer := some (.write .error) }

/-- R33: a write of v to STATUS, busy or not. -/
def Obligations.StatusWriteClearsDoneErrOvr : Prop :=
  ∀ (v : Word) (s : State),
    hostStep (.write 0x0008 0b1111 v) s =
      { s with
        status := { s.status with
          done := if v.getLsbD 1 then false else s.status.done
          err := if v.getLsbD 2 then false else s.status.err
          ovr := if v.getLsbD 3 then false else s.status.ovr }
        answer := some (.write .ok) }

/-- R34, R215: a write of v to IRQ_EN, busy or not; its read back; and the interrupt level it gates. -/
def Obligations.IrqEnableGatesTheInterrupt : Prop :=
  ∀ (v : Word) (s : State), ∃ t, hostStep (.write 0x000C 0b1111 v) s = t ∧
    t = { s with irqEn := t.irqEn, answer := some (.write .ok) } ∧
    hostStep (.read 0x000C 0b1111) t = { t with answer := some (.read (v &&& 7) .ok) } ∧
    (t.irq = true ↔ (s.status.done = true ∧ v.getLsbD 0 = true) ∨ (s.status.err = true ∧ v.getLsbD 1 = true) ∨
      (s.status.ovr = true ∧ v.getLsbD 2 = true))

/-- R26, R46, R32: STATUS as the host reads it, busy or not. -/
def Obligations.StatusReadsItsFields : Prop :=
  ∀ s : State, ∃ w : Word, hostStep (.read 0x0008 0b1111) s = { s with answer := some (.read w .ok) } ∧
    (w.getLsbD 0 = true ↔ s.engine ≠ .idle) ∧ w.getLsbD 1 = s.status.done ∧ w.getLsbD 2 = s.status.err ∧
    w.getLsbD 3 = s.status.ovr ∧ w.getLsbD 4 = s.status.ctxValid ∧ w.toNat / 2 ^ 5 % 8 = 0 ∧
    w.toNat / 2 ^ 8 % 16 = s.status.lastCode.toNat ∧ w.toNat / 2 ^ 12 = 0

/-- R38, R35–R37: a write to Q, N or OMEGA that is accepted stores the value and clears CTXVALID, whatever the value, and
changes nothing else. One during a busy period is not accepted and does not clear it. -/
def Obligations.ContextRegisterWriteDropsTheContext : Prop :=
  ∀ (v : Word) (s : State),
    (s.engine = .idle →
      hostStep (.write 0x0010 0b1111 v) s =
        { s with q := v, status := { s.status with ctxValid := false }, answer := some (.write .ok) } ∧
      hostStep (.write 0x0014 0b1111 v) s =
        { s with n := v, status := { s.status with ctxValid := false }, answer := some (.write .ok) } ∧
      hostStep (.write 0x0018 0b1111 v) s =
        { s with omega := v, status := { s.status with ctxValid := false }, answer := some (.write .ok) }) ∧
    (s.engine ≠ .idle → ∀ addr : BitVec 16, addr.toNat ∈ [0x0010, 0x0014, 0x0018] →
      hostStep (.write addr 0b1111 v) s =
        { s with status := { s.status with ovr := true }, answer := some (.write .ok) })

/-- R66: the polynomial window of the idle block. -/
def Obligations.BufferWindowStoresAndReadsWords : Prop :=
  ∀ (addr : BitVec 16) (b : BufIx) (i : Nat) (v : Word) (s : State), s.engine = .idle → i < 1024 →
    addr.toNat = 0x4000 + 4 * (1024 * b.val + i) →
    (i < s.config.nmax →
      hostStep (.read addr 0b1111) s = { s with answer := some (.read (s.poly b i) .ok) } ∧
      ∃ t, hostStep (.write addr 0b1111 v) s = t ∧ t = { s with mem := t.mem, answer := some (.write .ok) } ∧
        t.poly b i = v ∧
        ∀ k, k < addr.toNat ∨ addr.toNat + 4 ≤ k → t.mem.readByte k = s.mem.readByte k) ∧
    (s.config.nmax ≤ i →
      hostStep (.read addr 0b1111) s = { s with answer := some (.read 0 .error) } ∧
      hostStep (.write addr 0b1111 v) s = { s with answer := some (.write .error) })

/-- R22, R47: the scalar registers at 0x0040 + 4·i, of the idle block. -/
def Obligations.ScalarRegistersReadAndWriteByHost : Prop :=
  ∀ (addr : BitVec 16) (r : RegIx) (v : Word) (s : State), s.engine = .idle → addr.toNat = 0x0040 + 4 * r.val →
    hostStep (.read addr 0b1111) s = { s with answer := some (.read (s.readX r) .ok) } ∧
    ∃ t, hostStep (.write addr 0b1111 v) s = t ∧ t = { s with x := t.x, answer := some (.write .ok) } ∧
      t.readX r = v ∧ ∀ r', r' ≠ r → t.readX r' = s.readX r'

/-- R250: during a busy period a read of a location that a command may write gets OK and a word that nothing constrains,
the next of the model's free words (log 3). A read of INFO, CMD, STATUS, IRQ_EN, Q, N or OMEGA gets OK and the current
value, busy or not (R47). -/
def Obligations.BusyReadsOfResultsAreUnspecified : Prop :=
  (∀ (addr : BitVec 16) (s : State) (c : Word), s.engine = .busy c → ResultOffset s.config addr.toNat →
    hostStep (.read addr 0b1111) s =
      { s with answer := some (.read (Config.freeWord s.draws) .ok), draws := s.draws + 1 }) ∧
  (∀ (addr : BitVec 16) (s : State) (w : Word),
    (addr.toNat, w) ∈ [(0x0000, s.info), (0x0004, s.cmd), (0x0008, s.statusWord), (0x000C, s.irqEn.toWord),
      (0x0010, s.q), (0x0014, s.n), (0x0018, s.omega)] →
    hostStep (.read addr 0b1111) s = { s with answer := some (.read w .ok) })

/-- R251: during a busy period a write to x, P, Q, N, OMEGA or CMD is ignored, sets OVR and gets OK. -/
def Obligations.BusyWritesAreIgnored : Prop :=
  ∀ (addr : BitVec 16) (v : Word) (s : State) (c : Word), s.engine = .busy c → addr.toNat % 4 = 0 →
    (addr.toNat ∈ [0x0004, 0x0010, 0x0014, 0x0018] ∨ (0x0040 ≤ addr.toNat ∧ addr.toNat ≤ 0x007C) ∨
      (0x4000 ≤ addr.toNat ∧ addr.toNat ≤ 0x7FFF ∧ addr.toNat / 4 % 1024 < s.config.nmax)) →
    hostStep (.write addr 0b1111 v) s =
      { s with status := { s.status with ovr := true }, answer := some (.write .ok) }

/-- R68: host reads have no side effects: only the answer (log 11), and the model's count of free words (log 3), change.
A read that is not one of R250's exceptions leaves the count alone too, and gives the same answer again. -/
def Obligations.HostReadsHaveNoSideEffects : Prop :=
  ∀ (addr : BitVec 16) (be : BitVec 4) (s : State), ∃ t, hostStep (.read addr be) s = t ∧
    t = { s with answer := t.answer, draws := t.draws } ∧
    (s.engine = .idle ∨ ¬ ResultOffset s.config addr.toNat →
      t.draws = s.draws ∧ (hostStep (.read addr be) t).answer = t.answer)

/-! ### Reset and the whole machine -/

/-- R240, R24: the values of the state after reset, for the default NMAX of R5 (log 1). -/
def Obligations.ResetValues : Prop :=
  (∀ r, State.reset.readX r = 0) ∧ State.reset.info = 0x010F4A20 ∧ State.reset.cmd = 0 ∧
  State.reset.statusWord = 0 ∧ State.reset.irqEn.toWord = 0 ∧ State.reset.q = 0 ∧ State.reset.n = 0 ∧
  State.reset.omega = 0 ∧ State.reset.omegaInv = 0 ∧ State.reset.omegaN = 0 ∧ State.reset.omegaNInv = 0 ∧
  State.reset.nInv = 0 ∧ State.reset.engine = .idle ∧ State.reset.irq = false

/-- R240, R241: a reset edge gives every register its reset value and leaves P, TW and TWI alone, but for the words that an
abandoned command would have written, each of which holds an unspecified word. The model deduces three things here: the
split of reset into an edge and a release (log 7), that an abandoned polynomial command spoils nothing without a context
(log 8), and that an abandoned CTXSET spoils min(N, NMAX) entries of each table (log 9). It chooses three: that the
unspecified words are the next ones of its free words (log 3), that an abandoned Illegal word spoils nothing, whatever its
opcode (log 22), and that a completion or a transaction while rst_n is 0, and a release from any level, is passed over as
the last two clauses say (log 6). -/
def Obligations.ResetEdgeResetsRegistersAndKeepsMemory : Prop :=
  ∀ s : State,
    (∃ t, handle .resetEdge s = .next t ∧
      t = { State.reset with
        config := s.config, mem := t.mem, rstN := false, schedule := s.schedule, draws := t.draws } ∧
      (s.engine = .idle → t.mem = s.mem ∧ t.draws = s.draws) ∧
      (∀ c i, s.engine = .busy c → decode c = .ok i →
        (polyDest i = none → i ≠ .ctxset → t.mem = s.mem ∧ t.draws = s.draws) ∧
        (∀ d, polyDest i = some d →
          (s.status.ctxValid = false → t.mem = s.mem ∧ t.draws = s.draws) ∧
          (s.status.ctxValid = true →
            (∀ j < s.n.toNat, t.poly d j = Config.freeWord (s.draws + j)) ∧ t.draws = s.draws + s.n.toNat ∧
            ∀ k, k < bufBase d ∨ bufBase d + 4 * s.n.toNat ≤ k → t.mem.readByte k = s.mem.readByte k)) ∧
        (i = .ctxset →
          let m := min s.n.toNat s.config.nmax
          (∀ j < m, t.tw j = Config.freeWord (s.draws + j)) ∧
          (∀ j < m, t.twi j = Config.freeWord (s.draws + m + j)) ∧ t.draws = s.draws + m + m ∧
          ∀ k, (k < 0x8000 ∨ 0x8000 + 4 * m ≤ k) → (k < 0x9000 ∨ 0x9000 + 4 * m ≤ k) →
            t.mem.readByte k = s.mem.readByte k)) ∧
      (∀ c, s.engine = .busy c → (∀ i, decode c ≠ .ok i) → t.mem = s.mem ∧ t.draws = s.draws)) ∧
    (s.rstN = false → (∀ t, handle (.host t) s = .next s) ∧ handle .complete s = .next s) ∧
    handle .resetRelease s = .next { s with rstN := true }

/-- The invariant of R45, R46, R210 and R240 holds right after reset. Its canonical memory is the model's form (log 2), and
its clause about rst_n = 0 rests on log 7. -/
def Obligations.ResetSatisfiesTheInvariant : Prop := State.reset.Inv

/-- R45, R46, R210, R240: every step keeps the invariant, from every state that has it. Its canonical memory is the model's
form (log 2), and its clause about rst_n = 0 rests on log 7. -/
def Obligations.StepKeepsTheInvariant : Prop :=
  ∀ s t : State, s.Inv → step s = .next t → t.Inv

/-- R133, R71: the state after a completion does not depend on the transactions of the busy period, but for what accepted
transactions to STATUS and IRQ_EN (and ignored writes, through OVR) leave there, and the model's own answer (log 11) and
count of free words (log 3). -/
def Obligations.CompletionIsIndependentOfBusyTransactions : Prop :=
  ∀ (s : State) (c : Word) (ts : List Transaction), s.engine = .busy c →
    ∃ t u, completeStep s = .next t ∧
      completeStep (ts.foldl (fun s' tr => hostStep tr s') s) = .next u ∧
      u = { t with
        status := { t.status with err := u.status.err, ovr := u.status.ovr }
        irqEn := (ts.foldl (fun s' tr => hostStep tr s') s).irqEn
        answer := (ts.foldl (fun s' tr => hostStep tr s') s).answer
        draws := (ts.foldl (fun s' tr => hostStep tr s') s).draws } ∧
      u.status.err = ((ts.foldl (fun s' tr => hostStep tr s') s).status.err || t.status.lastCode != 0) ∧
      u.status.ovr = (ts.foldl (fun s' tr => hostStep tr s') s).status.ovr

/-- R47, R39–R44, R67: what a read by the idle block of each derived register and each table word answers, at its offset.
The other registers are in StatusReadsItsFields and BusyReadsOfResultsAreUnspecified, x and P in statements of their own. -/
def Obligations.IdleReadsOfTheContextAnswerItsValues : Prop :=
  ∀ s : State, s.engine = .idle →
    hostStep (.read 0x0020 0b1111) s = { s with answer := some (.read s.omegaInv .ok) } ∧
    hostStep (.read 0x0024 0b1111) s = { s with answer := some (.read s.omegaN .ok) } ∧
    hostStep (.read 0x0028 0b1111) s = { s with answer := some (.read s.omegaNInv .ok) } ∧
    hostStep (.read 0x002C 0b1111) s = { s with answer := some (.read s.nInv .ok) } ∧
    ∀ (addr : BitVec 16) (i : Nat), i < s.config.nmax →
      (addr.toNat = 0x8000 + 4 * i →
        hostStep (.read addr 0b1111) s = { s with answer := some (.read (s.tw i) .ok) }) ∧
      (addr.toNat = 0x9000 + 4 * i →
        hostStep (.read addr 0b1111) s = { s with answer := some (.read (s.twi i) .ok) })
end

