-- ==== Sys2Proof/Laws/State.lean ====
section
/-! SUPPORT. What each named update of State leaves in each field, and in the views that read a field: true by rfl, so that no
later proof unfolds a record update. -/

namespace Sys2Proof.Machine

/-! ### writeX -/

@[simp] theorem State.writeX_config (s : State) (r : RegIx) (v : Nat) : (s.writeX r v).config = s.config := rfl
@[simp] theorem State.writeX_x (s : State) (r : RegIx) (v : Nat) : (s.writeX r v).x = s.x.set r.val (BitVec.ofNat 32 v) r.isLt := rfl
@[simp] theorem State.writeX_mem (s : State) (r : RegIx) (v : Nat) : (s.writeX r v).mem = s.mem := rfl
@[simp] theorem State.writeX_q (s : State) (r : RegIx) (v : Nat) : (s.writeX r v).q = s.q := rfl
@[simp] theorem State.writeX_n (s : State) (r : RegIx) (v : Nat) : (s.writeX r v).n = s.n := rfl
@[simp] theorem State.writeX_omega (s : State) (r : RegIx) (v : Nat) : (s.writeX r v).omega = s.omega := rfl
@[simp] theorem State.writeX_omegaInv (s : State) (r : RegIx) (v : Nat) : (s.writeX r v).omegaInv = s.omegaInv := rfl
@[simp] theorem State.writeX_omegaN (s : State) (r : RegIx) (v : Nat) : (s.writeX r v).omegaN = s.omegaN := rfl
@[simp] theorem State.writeX_omegaNInv (s : State) (r : RegIx) (v : Nat) : (s.writeX r v).omegaNInv = s.omegaNInv := rfl
@[simp] theorem State.writeX_nInv (s : State) (r : RegIx) (v : Nat) : (s.writeX r v).nInv = s.nInv := rfl
@[simp] theorem State.writeX_cmd (s : State) (r : RegIx) (v : Nat) : (s.writeX r v).cmd = s.cmd := rfl
@[simp] theorem State.writeX_status (s : State) (r : RegIx) (v : Nat) : (s.writeX r v).status = s.status := rfl
@[simp] theorem State.writeX_irqEn (s : State) (r : RegIx) (v : Nat) : (s.writeX r v).irqEn = s.irqEn := rfl
@[simp] theorem State.writeX_engine (s : State) (r : RegIx) (v : Nat) : (s.writeX r v).engine = s.engine := rfl
@[simp] theorem State.writeX_rstN (s : State) (r : RegIx) (v : Nat) : (s.writeX r v).rstN = s.rstN := rfl
@[simp] theorem State.writeX_schedule (s : State) (r : RegIx) (v : Nat) : (s.writeX r v).schedule = s.schedule := rfl
@[simp] theorem State.writeX_answer (s : State) (r : RegIx) (v : Nat) : (s.writeX r v).answer = s.answer := rfl
@[simp] theorem State.writeX_draws (s : State) (r : RegIx) (v : Nat) : (s.writeX r v).draws = s.draws := rfl

/-! ### writeMem -/

@[simp] theorem State.writeMem_config (s : State) (a : Nat) (ws : List Word) : (s.writeMem a ws).config = s.config := rfl
@[simp] theorem State.writeMem_x (s : State) (a : Nat) (ws : List Word) : (s.writeMem a ws).x = s.x := rfl
@[simp] theorem State.writeMem_mem (s : State) (a : Nat) (ws : List Word) : (s.writeMem a ws).mem = s.mem.writeWords a ws := rfl
@[simp] theorem State.writeMem_q (s : State) (a : Nat) (ws : List Word) : (s.writeMem a ws).q = s.q := rfl
@[simp] theorem State.writeMem_n (s : State) (a : Nat) (ws : List Word) : (s.writeMem a ws).n = s.n := rfl
@[simp] theorem State.writeMem_omega (s : State) (a : Nat) (ws : List Word) : (s.writeMem a ws).omega = s.omega := rfl
@[simp] theorem State.writeMem_omegaInv (s : State) (a : Nat) (ws : List Word) : (s.writeMem a ws).omegaInv = s.omegaInv := rfl
@[simp] theorem State.writeMem_omegaN (s : State) (a : Nat) (ws : List Word) : (s.writeMem a ws).omegaN = s.omegaN := rfl
@[simp] theorem State.writeMem_omegaNInv (s : State) (a : Nat) (ws : List Word) : (s.writeMem a ws).omegaNInv = s.omegaNInv := rfl
@[simp] theorem State.writeMem_nInv (s : State) (a : Nat) (ws : List Word) : (s.writeMem a ws).nInv = s.nInv := rfl
@[simp] theorem State.writeMem_cmd (s : State) (a : Nat) (ws : List Word) : (s.writeMem a ws).cmd = s.cmd := rfl
@[simp] theorem State.writeMem_status (s : State) (a : Nat) (ws : List Word) : (s.writeMem a ws).status = s.status := rfl
@[simp] theorem State.writeMem_irqEn (s : State) (a : Nat) (ws : List Word) : (s.writeMem a ws).irqEn = s.irqEn := rfl
@[simp] theorem State.writeMem_engine (s : State) (a : Nat) (ws : List Word) : (s.writeMem a ws).engine = s.engine := rfl
@[simp] theorem State.writeMem_rstN (s : State) (a : Nat) (ws : List Word) : (s.writeMem a ws).rstN = s.rstN := rfl
@[simp] theorem State.writeMem_schedule (s : State) (a : Nat) (ws : List Word) : (s.writeMem a ws).schedule = s.schedule := rfl
@[simp] theorem State.writeMem_answer (s : State) (a : Nat) (ws : List Word) : (s.writeMem a ws).answer = s.answer := rfl
@[simp] theorem State.writeMem_draws (s : State) (a : Nat) (ws : List Word) : (s.writeMem a ws).draws = s.draws := rfl

/-! ### writeBuf -/

@[simp] theorem State.writeBuf_config (s : State) (b : BufIx) (vs : List Nat) : (s.writeBuf b vs).config = s.config := rfl
@[simp] theorem State.writeBuf_x (s : State) (b : BufIx) (vs : List Nat) : (s.writeBuf b vs).x = s.x := rfl
@[simp] theorem State.writeBuf_mem (s : State) (b : BufIx) (vs : List Nat) : (s.writeBuf b vs).mem = s.mem.writeWords (bufBase b) (toWords vs) := rfl
@[simp] theorem State.writeBuf_q (s : State) (b : BufIx) (vs : List Nat) : (s.writeBuf b vs).q = s.q := rfl
@[simp] theorem State.writeBuf_n (s : State) (b : BufIx) (vs : List Nat) : (s.writeBuf b vs).n = s.n := rfl
@[simp] theorem State.writeBuf_omega (s : State) (b : BufIx) (vs : List Nat) : (s.writeBuf b vs).omega = s.omega := rfl
@[simp] theorem State.writeBuf_omegaInv (s : State) (b : BufIx) (vs : List Nat) : (s.writeBuf b vs).omegaInv = s.omegaInv := rfl
@[simp] theorem State.writeBuf_omegaN (s : State) (b : BufIx) (vs : List Nat) : (s.writeBuf b vs).omegaN = s.omegaN := rfl
@[simp] theorem State.writeBuf_omegaNInv (s : State) (b : BufIx) (vs : List Nat) : (s.writeBuf b vs).omegaNInv = s.omegaNInv := rfl
@[simp] theorem State.writeBuf_nInv (s : State) (b : BufIx) (vs : List Nat) : (s.writeBuf b vs).nInv = s.nInv := rfl
@[simp] theorem State.writeBuf_cmd (s : State) (b : BufIx) (vs : List Nat) : (s.writeBuf b vs).cmd = s.cmd := rfl
@[simp] theorem State.writeBuf_status (s : State) (b : BufIx) (vs : List Nat) : (s.writeBuf b vs).status = s.status := rfl
@[simp] theorem State.writeBuf_irqEn (s : State) (b : BufIx) (vs : List Nat) : (s.writeBuf b vs).irqEn = s.irqEn := rfl
@[simp] theorem State.writeBuf_engine (s : State) (b : BufIx) (vs : List Nat) : (s.writeBuf b vs).engine = s.engine := rfl
@[simp] theorem State.writeBuf_rstN (s : State) (b : BufIx) (vs : List Nat) : (s.writeBuf b vs).rstN = s.rstN := rfl
@[simp] theorem State.writeBuf_schedule (s : State) (b : BufIx) (vs : List Nat) : (s.writeBuf b vs).schedule = s.schedule := rfl
@[simp] theorem State.writeBuf_answer (s : State) (b : BufIx) (vs : List Nat) : (s.writeBuf b vs).answer = s.answer := rfl
@[simp] theorem State.writeBuf_draws (s : State) (b : BufIx) (vs : List Nat) : (s.writeBuf b vs).draws = s.draws := rfl

/-! ### issue -/

@[simp] theorem State.issue_config (s : State) (c : Word) : (s.issue c).config = s.config := rfl
@[simp] theorem State.issue_x (s : State) (c : Word) : (s.issue c).x = s.x := rfl
@[simp] theorem State.issue_mem (s : State) (c : Word) : (s.issue c).mem = s.mem := rfl
@[simp] theorem State.issue_q (s : State) (c : Word) : (s.issue c).q = s.q := rfl
@[simp] theorem State.issue_n (s : State) (c : Word) : (s.issue c).n = s.n := rfl
@[simp] theorem State.issue_omega (s : State) (c : Word) : (s.issue c).omega = s.omega := rfl
@[simp] theorem State.issue_omegaInv (s : State) (c : Word) : (s.issue c).omegaInv = s.omegaInv := rfl
@[simp] theorem State.issue_omegaN (s : State) (c : Word) : (s.issue c).omegaN = s.omegaN := rfl
@[simp] theorem State.issue_omegaNInv (s : State) (c : Word) : (s.issue c).omegaNInv = s.omegaNInv := rfl
@[simp] theorem State.issue_nInv (s : State) (c : Word) : (s.issue c).nInv = s.nInv := rfl
@[simp] theorem State.issue_cmd (s : State) (c : Word) : (s.issue c).cmd = c := rfl
@[simp] theorem State.issue_status (s : State) (c : Word) : (s.issue c).status = s.status.issued := rfl
@[simp] theorem State.issue_irqEn (s : State) (c : Word) : (s.issue c).irqEn = s.irqEn := rfl
@[simp] theorem State.issue_engine (s : State) (c : Word) : (s.issue c).engine = .busy c := rfl
@[simp] theorem State.issue_rstN (s : State) (c : Word) : (s.issue c).rstN = s.rstN := rfl
@[simp] theorem State.issue_schedule (s : State) (c : Word) : (s.issue c).schedule = s.schedule := rfl
@[simp] theorem State.issue_answer (s : State) (c : Word) : (s.issue c).answer = s.answer := rfl
@[simp] theorem State.issue_draws (s : State) (c : Word) : (s.issue c).draws = s.draws := rfl

/-! ### finish -/

@[simp] theorem State.finish_config (s : State) (code : Code) : (s.finish code).config = s.config := rfl
@[simp] theorem State.finish_x (s : State) (code : Code) : (s.finish code).x = s.x := rfl
@[simp] theorem State.finish_mem (s : State) (code : Code) : (s.finish code).mem = s.mem := rfl
@[simp] theorem State.finish_q (s : State) (code : Code) : (s.finish code).q = s.q := rfl
@[simp] theorem State.finish_n (s : State) (code : Code) : (s.finish code).n = s.n := rfl
@[simp] theorem State.finish_omega (s : State) (code : Code) : (s.finish code).omega = s.omega := rfl
@[simp] theorem State.finish_omegaInv (s : State) (code : Code) : (s.finish code).omegaInv = s.omegaInv := rfl
@[simp] theorem State.finish_omegaN (s : State) (code : Code) : (s.finish code).omegaN = s.omegaN := rfl
@[simp] theorem State.finish_omegaNInv (s : State) (code : Code) : (s.finish code).omegaNInv = s.omegaNInv := rfl
@[simp] theorem State.finish_nInv (s : State) (code : Code) : (s.finish code).nInv = s.nInv := rfl
@[simp] theorem State.finish_cmd (s : State) (code : Code) : (s.finish code).cmd = s.cmd := rfl
@[simp] theorem State.finish_status (s : State) (code : Code) : (s.finish code).status = s.status.completed code := rfl
@[simp] theorem State.finish_irqEn (s : State) (code : Code) : (s.finish code).irqEn = s.irqEn := rfl
@[simp] theorem State.finish_engine (s : State) (code : Code) : (s.finish code).engine = .idle := rfl
@[simp] theorem State.finish_rstN (s : State) (code : Code) : (s.finish code).rstN = s.rstN := rfl
@[simp] theorem State.finish_schedule (s : State) (code : Code) : (s.finish code).schedule = s.schedule := rfl
@[simp] theorem State.finish_answer (s : State) (code : Code) : (s.finish code).answer = s.answer := rfl
@[simp] theorem State.finish_draws (s : State) (code : Code) : (s.finish code).draws = s.draws := rfl

/-! ### answered -/

@[simp] theorem State.answered_config (s : State) (a : Answer) : (s.answered a).config = s.config := rfl
@[simp] theorem State.answered_x (s : State) (a : Answer) : (s.answered a).x = s.x := rfl
@[simp] theorem State.answered_mem (s : State) (a : Answer) : (s.answered a).mem = s.mem := rfl
@[simp] theorem State.answered_q (s : State) (a : Answer) : (s.answered a).q = s.q := rfl
@[simp] theorem State.answered_n (s : State) (a : Answer) : (s.answered a).n = s.n := rfl
@[simp] theorem State.answered_omega (s : State) (a : Answer) : (s.answered a).omega = s.omega := rfl
@[simp] theorem State.answered_omegaInv (s : State) (a : Answer) : (s.answered a).omegaInv = s.omegaInv := rfl
@[simp] theorem State.answered_omegaN (s : State) (a : Answer) : (s.answered a).omegaN = s.omegaN := rfl
@[simp] theorem State.answered_omegaNInv (s : State) (a : Answer) : (s.answered a).omegaNInv = s.omegaNInv := rfl
@[simp] theorem State.answered_nInv (s : State) (a : Answer) : (s.answered a).nInv = s.nInv := rfl
@[simp] theorem State.answered_cmd (s : State) (a : Answer) : (s.answered a).cmd = s.cmd := rfl
@[simp] theorem State.answered_status (s : State) (a : Answer) : (s.answered a).status = s.status := rfl
@[simp] theorem State.answered_irqEn (s : State) (a : Answer) : (s.answered a).irqEn = s.irqEn := rfl
@[simp] theorem State.answered_engine (s : State) (a : Answer) : (s.answered a).engine = s.engine := rfl
@[simp] theorem State.answered_rstN (s : State) (a : Answer) : (s.answered a).rstN = s.rstN := rfl
@[simp] theorem State.answered_schedule (s : State) (a : Answer) : (s.answered a).schedule = s.schedule := rfl
@[simp] theorem State.answered_answer (s : State) (a : Answer) : (s.answered a).answer = some a := rfl
@[simp] theorem State.answered_draws (s : State) (a : Answer) : (s.answered a).draws = s.draws := rfl

/-! ### unanswered -/

@[simp] theorem State.unanswered_config (s : State) : s.unanswered.config = s.config := rfl
@[simp] theorem State.unanswered_x (s : State) : s.unanswered.x = s.x := rfl
@[simp] theorem State.unanswered_mem (s : State) : s.unanswered.mem = s.mem := rfl
@[simp] theorem State.unanswered_q (s : State) : s.unanswered.q = s.q := rfl
@[simp] theorem State.unanswered_n (s : State) : s.unanswered.n = s.n := rfl
@[simp] theorem State.unanswered_omega (s : State) : s.unanswered.omega = s.omega := rfl
@[simp] theorem State.unanswered_omegaInv (s : State) : s.unanswered.omegaInv = s.omegaInv := rfl
@[simp] theorem State.unanswered_omegaN (s : State) : s.unanswered.omegaN = s.omegaN := rfl
@[simp] theorem State.unanswered_omegaNInv (s : State) : s.unanswered.omegaNInv = s.omegaNInv := rfl
@[simp] theorem State.unanswered_nInv (s : State) : s.unanswered.nInv = s.nInv := rfl
@[simp] theorem State.unanswered_cmd (s : State) : s.unanswered.cmd = s.cmd := rfl
@[simp] theorem State.unanswered_status (s : State) : s.unanswered.status = s.status := rfl
@[simp] theorem State.unanswered_irqEn (s : State) : s.unanswered.irqEn = s.irqEn := rfl
@[simp] theorem State.unanswered_engine (s : State) : s.unanswered.engine = s.engine := rfl
@[simp] theorem State.unanswered_rstN (s : State) : s.unanswered.rstN = s.rstN := rfl
@[simp] theorem State.unanswered_schedule (s : State) : s.unanswered.schedule = s.schedule := rfl
@[simp] theorem State.unanswered_answer (s : State) : s.unanswered.answer = none := rfl
@[simp] theorem State.unanswered_draws (s : State) : s.unanswered.draws = s.draws := rfl

/-! ### scramble -/

@[simp] theorem State.scramble_config (s : State) (a k : Nat) : (s.scramble a k).config = s.config := rfl
@[simp] theorem State.scramble_x (s : State) (a k : Nat) : (s.scramble a k).x = s.x := rfl
@[simp] theorem State.scramble_q (s : State) (a k : Nat) : (s.scramble a k).q = s.q := rfl
@[simp] theorem State.scramble_n (s : State) (a k : Nat) : (s.scramble a k).n = s.n := rfl
@[simp] theorem State.scramble_omega (s : State) (a k : Nat) : (s.scramble a k).omega = s.omega := rfl
@[simp] theorem State.scramble_omegaInv (s : State) (a k : Nat) : (s.scramble a k).omegaInv = s.omegaInv := rfl
@[simp] theorem State.scramble_omegaN (s : State) (a k : Nat) : (s.scramble a k).omegaN = s.omegaN := rfl
@[simp] theorem State.scramble_omegaNInv (s : State) (a k : Nat) : (s.scramble a k).omegaNInv = s.omegaNInv := rfl
@[simp] theorem State.scramble_nInv (s : State) (a k : Nat) : (s.scramble a k).nInv = s.nInv := rfl
@[simp] theorem State.scramble_cmd (s : State) (a k : Nat) : (s.scramble a k).cmd = s.cmd := rfl
@[simp] theorem State.scramble_status (s : State) (a k : Nat) : (s.scramble a k).status = s.status := rfl
@[simp] theorem State.scramble_irqEn (s : State) (a k : Nat) : (s.scramble a k).irqEn = s.irqEn := rfl
@[simp] theorem State.scramble_engine (s : State) (a k : Nat) : (s.scramble a k).engine = s.engine := rfl
@[simp] theorem State.scramble_rstN (s : State) (a k : Nat) : (s.scramble a k).rstN = s.rstN := rfl
@[simp] theorem State.scramble_schedule (s : State) (a k : Nat) : (s.scramble a k).schedule = s.schedule := rfl
@[simp] theorem State.scramble_answer (s : State) (a k : Nat) : (s.scramble a k).answer = s.answer := rfl
@[simp] theorem State.scramble_draws (s : State) (a k : Nat) : (s.scramble a k).draws = s.draws + k := rfl

/-! ### loadContext -/

@[simp] theorem State.loadContext_config (s : State) : s.loadContext.config = s.config := rfl
@[simp] theorem State.loadContext_x (s : State) : s.loadContext.x = s.x := rfl
@[simp] theorem State.loadContext_q (s : State) : s.loadContext.q = s.q := rfl
@[simp] theorem State.loadContext_n (s : State) : s.loadContext.n = s.n := rfl
@[simp] theorem State.loadContext_omega (s : State) : s.loadContext.omega = s.omega := rfl
@[simp] theorem State.loadContext_cmd (s : State) : s.loadContext.cmd = s.cmd := rfl
@[simp] theorem State.loadContext_status (s : State) : s.loadContext.status = s.status.contextSet := rfl
@[simp] theorem State.loadContext_irqEn (s : State) : s.loadContext.irqEn = s.irqEn := rfl
@[simp] theorem State.loadContext_engine (s : State) : s.loadContext.engine = s.engine := rfl
@[simp] theorem State.loadContext_rstN (s : State) : s.loadContext.rstN = s.rstN := rfl
@[simp] theorem State.loadContext_schedule (s : State) : s.loadContext.schedule = s.schedule := rfl
@[simp] theorem State.loadContext_answer (s : State) : s.loadContext.answer = s.answer := rfl
@[simp] theorem State.loadContext_draws (s : State) : s.loadContext.draws = s.draws := rfl

@[simp] theorem Status.completed_done (st : Status) (code : Code) : (st.completed code).done = true := rfl
@[simp] theorem Status.completed_err (st : Status) (code : Code) : (st.completed code).err = (st.err || code != .ok) := rfl
@[simp] theorem Status.completed_ovr (st : Status) (code : Code) : (st.completed code).ovr = st.ovr := rfl
@[simp] theorem Status.completed_ctxValid (st : Status) (code : Code) : (st.completed code).ctxValid = st.ctxValid := rfl
@[simp] theorem Status.completed_lastCode (st : Status) (code : Code) : (st.completed code).lastCode = code.bits := rfl
@[simp] theorem Status.issued_done (st : Status) : st.issued.done = false := rfl
@[simp] theorem Status.issued_err (st : Status) : st.issued.err = st.err := rfl
@[simp] theorem Status.issued_ovr (st : Status) : st.issued.ovr = st.ovr := rfl
@[simp] theorem Status.issued_ctxValid (st : Status) : st.issued.ctxValid = st.ctxValid := rfl
@[simp] theorem Status.issued_lastCode (st : Status) : st.issued.lastCode = st.lastCode := rfl
@[simp] theorem Status.overrun_done (st : Status) : st.overrun.done = st.done := rfl
@[simp] theorem Status.overrun_err (st : Status) : st.overrun.err = st.err := rfl
@[simp] theorem Status.overrun_ovr (st : Status) : st.overrun.ovr = true := rfl
@[simp] theorem Status.overrun_ctxValid (st : Status) : st.overrun.ctxValid = st.ctxValid := rfl
@[simp] theorem Status.overrun_lastCode (st : Status) : st.overrun.lastCode = st.lastCode := rfl
@[simp] theorem Status.contextLost_done (st : Status) : st.contextLost.done = st.done := rfl
@[simp] theorem Status.contextLost_err (st : Status) : st.contextLost.err = st.err := rfl
@[simp] theorem Status.contextLost_ovr (st : Status) : st.contextLost.ovr = st.ovr := rfl
@[simp] theorem Status.contextLost_ctxValid (st : Status) : st.contextLost.ctxValid = false := rfl
@[simp] theorem Status.contextLost_lastCode (st : Status) : st.contextLost.lastCode = st.lastCode := rfl
@[simp] theorem Status.contextSet_done (st : Status) : st.contextSet.done = st.done := rfl
@[simp] theorem Status.contextSet_err (st : Status) : st.contextSet.err = st.err := rfl
@[simp] theorem Status.contextSet_ovr (st : Status) : st.contextSet.ovr = st.ovr := rfl
@[simp] theorem Status.contextSet_ctxValid (st : Status) : st.contextSet.ctxValid = true := rfl
@[simp] theorem Status.contextSet_lastCode (st : Status) : st.contextSet.lastCode = st.lastCode := rfl
@[simp] theorem Status.clearedBy_done (st : Status) (v : Word) : (st.clearedBy v).done = (st.done && !v.getLsbD 1) := rfl
@[simp] theorem Status.clearedBy_err (st : Status) (v : Word) : (st.clearedBy v).err = (st.err && !v.getLsbD 2) := rfl
@[simp] theorem Status.clearedBy_ovr (st : Status) (v : Word) : (st.clearedBy v).ovr = (st.ovr && !v.getLsbD 3) := rfl
@[simp] theorem Status.clearedBy_ctxValid (st : Status) (v : Word) : (st.clearedBy v).ctxValid = (st.ctxValid) := rfl
@[simp] theorem Status.clearedBy_lastCode (st : Status) (v : Word) : (st.clearedBy v).lastCode = (st.lastCode) := rfl

@[simp] theorem Engine.isBusy_idle : Engine.idle.isBusy = false := rfl
@[simp] theorem Engine.isBusy_busy (c : Word) : (Engine.busy c).isBusy = true := rfl

end Sys2Proof.Machine
end

