-- ==== Sys2Proof/Laws/Memory.lean ====
section
/-! SUPPORT. What a memory write does to a read of one byte or one word, and that it keeps the canonical form. -/

namespace Sys2Proof.Machine

/-! ### lookup -/

theorem Memory.lookup_append (m m' : Memory) (k : Nat) :
    Memory.lookup (m ++ m') k = (m.lookup k).or (m'.lookup k) := by
  induction m with
  | nil => simp [Memory.lookup]
  | cons c m ih => simp only [List.cons_append, Memory.lookup]; split <;> simp_all

theorem Memory.lookup_filter (m : Memory) (p : Nat → Bool) (k : Nat) :
    Memory.lookup (m.filter (fun c => p c.1)) k = if p k then m.lookup k else none := by
  induction m with
  | nil => simp [Memory.lookup]
  | cons c m ih =>
    simp only [List.filter_cons, Memory.lookup]
    by_cases hc : c.1 = k
    · subst hc; by_cases hp : p c.1 <;> simp_all [Memory.lookup]
    · by_cases hp : p c.1 <;> simp_all [Memory.lookup]

theorem Memory.lookup_cells (a : Nat) (bs : List Byte) (k : Nat) :
    (Memory.cells a bs).lookup k = if a ≤ k then bs[k - a]? else none := by
  induction bs generalizing a with
  | nil => simp [Memory.cells, Memory.lookup]
  | cons b bs ih =>
    simp only [Memory.cells, Memory.lookup, ih]
    by_cases h : a = k
    · simp [h]
    · by_cases h' : a + 1 ≤ k
      · obtain ⟨j, rfl⟩ := Nat.exists_eq_add_of_le h'
        have e : a + 1 + j - a = j + 1 := by omega
        simp [h, e, show a ≤ a + 1 + j by omega]
      · simp [h, h', show ¬ a ≤ k by omega]

/-! ### bytes -/

/-- A read of one byte after a write. -/
theorem Memory.readByte_writeBytes (m : Memory) (a : Nat) (bs : List Byte) (k : Nat) :
    (m.writeBytes a bs).readByte k = if h : a ≤ k ∧ k < a + bs.length then bs[k - a] else m.readByte k := by
  unfold Memory.readByte Memory.writeBytes
  rw [Memory.lookup_append, Memory.lookup_append, Memory.lookup_filter m (fun i => decide (i < a)),
    Memory.lookup_filter m (fun i => decide (a + bs.length ≤ i)), Memory.lookup_cells]
  by_cases h1 : k < a
  · simp [h1, show ¬ a ≤ k by omega, show ¬ a + bs.length ≤ k by omega]
  · by_cases h2 : k < a + bs.length
    · have : k - a < bs.length := by omega
      simp [h1, h2, show a ≤ k by omega, List.getElem?_eq_getElem this]
    · have : bs[k - a]? = none := by simp; omega
      simp [h1, h2, show a ≤ k by omega, this, show a + bs.length ≤ k by omega]

theorem Memory.mem_cells {a : Nat} {bs : List Byte} {c : Host.Cell} (h : c ∈ Memory.cells a bs) :
    a ≤ c.1 ∧ c.1 < a + bs.length := by
  induction bs generalizing a with
  | nil => simp [Memory.cells] at h
  | cons b bs ih =>
    rcases List.mem_cons.1 h with rfl | h
    · simp
    · have := ih h; simp only [List.length_cons]; omega

theorem Memory.wf_cells (a : Nat) (bs : List Byte) : Memory.wf (Memory.cells a bs) := by
  induction bs generalizing a with
  | nil => exact List.Pairwise.nil
  | cons b bs ih => exact List.Pairwise.cons (fun c hc => by have := Memory.mem_cells hc; simp; omega) (ih _)

/-- A write keeps the canonical form. -/
theorem Memory.wf_writeBytes {m : Memory} (h : m.wf) (a : Nat) (bs : List Byte) : (m.writeBytes a bs).wf := by
  unfold Memory.writeBytes
  refine List.pairwise_append.2 ⟨List.pairwise_append.2 ⟨h.filter _, Memory.wf_cells a bs, ?_⟩, h.filter _, ?_⟩
  · intro c hc c' hc'
    have := Memory.mem_cells hc'
    simp at hc; omega
  · intro c hc c' hc'
    simp only [List.mem_append, List.mem_filter, decide_eq_true_eq] at hc hc'
    rcases hc with hc | hc
    · omega
    · have := Memory.mem_cells hc; omega

/-- The addresses a write can list. -/
theorem Memory.mem_writeBytes {m : Memory} {a : Nat} {bs : List Byte} {c : Host.Cell} (h : c ∈ m.writeBytes a bs) :
    c ∈ m ∨ (a ≤ c.1 ∧ c.1 < a + bs.length) := by
  simp only [Memory.writeBytes, List.mem_append, List.mem_filter] at h
  rcases h with (h | h) | h
  · exact .inl h.1
  · exact .inr (Memory.mem_cells h)
  · exact .inl h.1

/-! ### words -/

@[simp] theorem length_flatMap_wordBytes (ws : List Word) : (ws.flatMap wordBytes).length = 4 * ws.length := by
  induction ws with
  | nil => rfl
  | cons w ws ih => simp [List.flatMap_cons, wordBytes, ih]; omega

theorem getElem_flatMap_wordBytes (ws : List Word) (i j : Nat) (hj : j < 4) (hi : i < ws.length)
    (h : 4 * i + j < (ws.flatMap wordBytes).length) :
    (ws.flatMap wordBytes)[4 * i + j] = ws[i].extractLsb' (8 * j) 8 := by
  induction ws generalizing i with
  | nil => simp at hi
  | cons w ws ih =>
    cases i with
    | zero => interval_cases j <;> simp [List.flatMap_cons, wordBytes]
    | succ i =>
      simp only [List.flatMap_cons]
      rw [List.getElem_append_right (by simp [wordBytes]; omega)]
      simp only [wordBytes, List.length_cons, List.length_nil, List.getElem_cons_succ]
      have e : 4 * (i + 1) + j - (0 + 1 + 1 + 1 + 1) = 4 * i + j := by omega
      simp only [e]
      exact ih i (by simpa using hi) _

theorem word_of_bytes (w : Word) :
    w.extractLsb' 24 8 ++ w.extractLsb' 16 8 ++ w.extractLsb' 8 8 ++ w.extractLsb' 0 8 = w := by
  ext i hi
  simp only [BitVec.getElem_append, BitVec.getElem_extractLsb']
  split
  · rw [Nat.zero_add, BitVec.getLsbD_eq_getElem hi]
  · split
    · rw [BitVec.getLsbD_eq_getElem (by omega)]; congr 1; omega
    · split
      · rw [BitVec.getLsbD_eq_getElem (by omega)]; congr 1; omega
      · rw [BitVec.getLsbD_eq_getElem (by omega)]; congr 1; omega

/-- A word that a block write wrote. -/
theorem Memory.readWord_writeWords (m : Memory) (a : Nat) (ws : List Word) (i : Nat) (h : i < ws.length) :
    (m.writeWords a ws).readWord (a + 4 * i) = ws[i] := by
  have key : ∀ j, j < 4 → (m.writeWords a ws).readByte (a + 4 * i + j) = ws[i].extractLsb' (8 * j) 8 := by
    intro j hj
    have h1 : a ≤ a + 4 * i + j ∧ a + 4 * i + j < a + (ws.flatMap wordBytes).length := by
      rw [length_flatMap_wordBytes]; omega
    unfold Memory.writeWords
    rw [Memory.readByte_writeBytes, dif_pos h1]
    have e : a + 4 * i + j - a = 4 * i + j := by omega
    simp only [e]
    exact getElem_flatMap_wordBytes ws i j hj h _
  unfold Memory.readWord
  rw [key 3 (by omega), key 2 (by omega), key 1 (by omega), show a + 4 * i = a + 4 * i + 0 from rfl, key 0 (by omega)]
  exact word_of_bytes _

/-- A byte outside a block write. -/
theorem Memory.readByte_writeWords_of_outside (m : Memory) (a : Nat) (ws : List Word) (k : Nat)
    (h : k < a ∨ a + 4 * ws.length ≤ k) : (m.writeWords a ws).readByte k = m.readByte k := by
  unfold Memory.writeWords
  rw [Memory.readByte_writeBytes, dif_neg]
  simp only [length_flatMap_wordBytes]; omega

/-- A word outside a block write. -/
theorem Memory.readWord_writeWords_of_outside (m : Memory) (a : Nat) (ws : List Word) (k : Nat)
    (h : k + 4 ≤ a ∨ a + 4 * ws.length ≤ k) : (m.writeWords a ws).readWord k = m.readWord k := by
  unfold Memory.readWord
  repeat rw [Memory.readByte_writeWords_of_outside _ _ _ _ (by omega)]

theorem Memory.wf_writeWords {m : Memory} (h : m.wf) (a : Nat) (ws : List Word) : (m.writeWords a ws).wf :=
  Memory.wf_writeBytes h _ _

theorem Memory.mem_writeWords {m : Memory} {a : Nat} {ws : List Word} {c : Host.Cell} (h : c ∈ m.writeWords a ws) :
    c ∈ m ∨ (a ≤ c.1 ∧ c.1 < a + 4 * ws.length) := by
  have := Memory.mem_writeBytes h
  rwa [length_flatMap_wordBytes] at this

/-- The memory of State.reset has the canonical form. -/
theorem State.reset_mem_wf : State.reset.mem.wf := List.Pairwise.nil

@[simp] theorem length_toWords (vs : List Nat) : (toWords vs).length = vs.length := by simp [toWords]

theorem getElem_toWords (vs : List Nat) (i : Nat) (h : i < (toWords vs).length) :
    (toWords vs)[i] = BitVec.ofNat 32 (vs[i]'(by simpa using h)) := by simp [toWords]

/-- Word i of a buffer after a buffer write. -/
theorem State.poly_writeBuf (s : State) (b : BufIx) (vs : List Nat) (i : Nat) (h : i < vs.length) :
    (s.writeBuf b vs).poly b i = BitVec.ofNat 32 vs[i] := by
  unfold State.poly
  rw [State.writeBuf_mem, Memory.readWord_writeWords _ _ _ _ (by simpa using h), getElem_toWords]

/-! ### registers -/

theorem State.readX_writeX_self (s : State) (r : RegIx) (v : Nat) : (s.writeX r v).readX r = BitVec.ofNat 32 v := by
  change (s.x.set r.val (BitVec.ofNat 32 v) r.isLt)[r.val] = _
  exact Vector.getElem_set_self _

theorem State.readX_writeX_of_ne (s : State) {r r' : RegIx} (v : Nat) (h : r' ≠ r) :
    (s.writeX r v).readX r' = s.readX r' := by
  have : r.val ≠ r'.val := fun e => h (Fin.ext e.symm)
  change (s.x.set r.val (BitVec.ofNat 32 v) r.isLt)[r'.val] = s.x[r'.val]
  exact Vector.getElem_set_ne _ _ this

/-- R241: word j of a block left unspecified is free word j of the draw. -/
theorem State.readWord_scramble (s : State) (a k j : Nat) (h : j < k) :
    (s.scramble a k).mem.readWord (a + 4 * j) = Config.freeWord (s.draws + j) := by
  rw [show (s.scramble a k).mem =
    s.mem.writeWords a ((List.range k).map (fun j => Config.freeWord (s.draws + j))) from rfl,
    Memory.readWord_writeWords _ _ _ _ (by simpa using h)]
  simp

/-- R241: no byte outside the block changes. -/
theorem State.readByte_scramble_of_outside (s : State) (a k b : Nat) (h : b < a ∨ a + 4 * k ≤ b) :
    (s.scramble a k).mem.readByte b = s.mem.readByte b :=
  Memory.readByte_writeWords_of_outside _ _ _ _ (by simpa using h)

/-- R241: no word outside the block changes. -/
theorem State.readWord_scramble_of_outside (s : State) (a k b : Nat) (h : b + 4 ≤ a ∨ a + 4 * k ≤ b) :
    (s.scramble a k).mem.readWord b = s.mem.readWord b :=
  Memory.readWord_writeWords_of_outside _ _ _ _ (by simpa using h)

end Sys2Proof.Machine
end

