-- ==== Sys2Proof/Laws/Arith.lean ====
section
/-! SUPPORT. What each arithmetic function of the model computes, in the formulas of the spec. -/

namespace Sys2Proof.Machine

/-! ### powmod -/

theorem powModFuel_eq (fuel a e q : Nat) (h : e < 2 ^ fuel) : powModFuel fuel a e q = a ^ e % q := by
  induction fuel generalizing a e with
  | zero => simp at h; simp [powModFuel, h]
  | succ fuel ih =>
    have h2 : e / 2 < 2 ^ fuel := by rw [pow_succ] at h; omega
    have half : (a * a % q) ^ (e / 2) % q = a ^ (2 * (e / 2)) % q := by
      rw [← Nat.pow_mod, pow_mul, pow_two]
    simp only [powModFuel]
    split
    · simp_all
    · split
      · rename_i _ ho
        have e1 : e = 2 * (e / 2) + 1 := by omega
        rw [ih _ _ h2, half, Nat.mod_mul_mod, ← pow_succ, ← e1]
      · rename_i _ ho
        have e1 : e = 2 * (e / 2) := by omega
        rw [ih _ _ h2, half, ← e1]

/-- R9: powmod(a, e, q) = (a ^ e) mod q. -/
theorem powMod_eq (a e q : Nat) : powMod a e q = a ^ e % q := powModFuel_eq _ _ _ _ Nat.lt_log2_self

/-! ### add, subtract, multiply -/

theorem addMod_lt {a b q : Nat} (h : 0 < q) : addMod a b q < q := Nat.mod_lt _ h

theorem mulMod_lt {a b q : Nat} (h : 0 < q) : mulMod a b q < q := Nat.mod_lt _ h

theorem subMod_lt {a b q : Nat} (ha : a < q) (hb : b < q) : subMod a b q < q := by unfold subMod; split <;> omega

/-- R142: the model's subtraction is the mathematical (a − b) mod q. -/
theorem subMod_eq {a b q : Nat} (ha : a < q) (hb : b < q) : ((subMod a b q : Nat) : Int) = ((a : Int) - b) % q := by
  unfold subMod
  split
  · rw [Int.emod_eq_of_lt] <;> omega
  · rw [← Int.add_emod_right, Int.emod_eq_of_lt] <;> omega

/-! ### bit reversal -/

theorem bitRev_lt (k i : Nat) : bitRev k i < 2 ^ k := by
  induction k generalizing i with
  | zero => simp [bitRev]
  | succ k ih =>
    have := ih (i / 2)
    have h2 : i % 2 = 0 ∨ i % 2 = 1 := by omega
    rcases h2 with h | h <;> simp only [bitRev, h, pow_succ] <;> omega

@[simp] theorem length_bitReverse (ys : List Nat) : (bitReverse ys).length = ys.length := by simp [bitReverse]

/-! ### transforms -/

theorem modEq_sum {n q : Nat} {f g : Nat → Nat} (h : ∀ j, f j ≡ g j [MOD q]) :
    ∑ j ∈ Finset.range n, f j ≡ ∑ j ∈ Finset.range n, g j [MOD q] := by
  induction n with
  | zero => rfl
  | succ n ih => rw [Finset.sum_range_succ, Finset.sum_range_succ]; exact ih.add (h n)

/-- The running-power sum is Σ_j ys[j] · p · w^j modulo q. -/
theorem powerSum_modEq (w q : Nat) (ys : List Nat) (p : Nat) :
    powerSum w q ys p ≡ ∑ j ∈ Finset.range ys.length, ys.getD j 0 * (p * w ^ j) [MOD q] := by
  induction ys generalizing p with
  | nil => simp [powerSum, Nat.ModEq]
  | cons y ys ih =>
    rw [powerSum, List.length_cons, Finset.sum_range_succ', add_comm]
    refine Nat.ModEq.add ((ih _).trans (modEq_sum fun j => ?_)) (by simp [Nat.ModEq])
    rw [List.getD_cons_succ]
    refine Nat.ModEq.mul_left _ ?_
    rw [pow_succ', ← mul_assoc]
    exact (Nat.mod_modEq _ _).mul_right _

/-- R164, R165: word k of the transform with root r is (Σ_j ys[j] · r^(jk)) mod q. -/
theorem transformAt_eq (r q : Nat) (ys : List Nat) (k : Nat) :
    transformAt r q ys k = (∑ j ∈ Finset.range ys.length, ys.getD j 0 * r ^ (j * k)) % q := by
  rw [transformAt, powMod_eq]
  refine (powerSum_modEq _ _ _ _).trans (modEq_sum fun j => Nat.ModEq.mul_left _ ?_)
  rw [mul_comm j k, pow_mul]
  simpa using (Nat.mod_modEq 1 q).mul ((Nat.mod_modEq (r ^ k) q).pow j)

@[simp] theorem length_transform (r q : Nat) (ys : List Nat) : (transform r q ys).length = ys.length := by
  simp [transform]

theorem getElem_transform (r q : Nat) (ys : List Nat) (k : Nat) (h : k < (transform r q ys).length) :
    (transform r q ys)[k] = transformAt r q ys k := by simp [transform]

@[simp] theorem length_pointwise (q : Nat) (ys zs : List Nat) :
    (pointwise q ys zs).length = min ys.length zs.length := by simp [pointwise]

@[simp] theorem length_scale (q c : Nat) (ys : List Nat) : (scale q c ys).length = ys.length := by simp [scale]

@[simp] theorem length_scalePointwise (q c : Nat) (ys zs : List Nat) :
    (scalePointwise q c ys zs).length = min ys.length zs.length := by simp [scalePointwise]

@[simp] theorem length_powerTable (r n q : Nat) : (powerTable r n q).length = n := by simp [powerTable]

@[simp] theorem length_negacyclic (q r ri ni : Nat) (tw twi as bs : List Nat) :
    (negacyclic q r ri ni tw twi as bs).length =
      min (min (min as.length tw.length) (min bs.length tw.length)) twi.length := by
  simp [negacyclic]

@[simp] theorem State.length_source (s : State) (b : BufIx) : (s.source b).length = s.degree := by simp [State.source]

@[simp] theorem State.length_twiddles (s : State) : s.twiddles.length = s.degree := by simp [State.twiddles]

@[simp] theorem State.length_inverseTwiddles (s : State) : s.inverseTwiddles.length = s.degree := by
  simp [State.inverseTwiddles]

theorem State.getD_source (s : State) (b : BufIx) (i : Nat) (h : i < s.degree) :
    (s.source b).getD i 0 = (s.poly b i).toNat := by
  rw [List.getD_eq_getElem _ _ (by simpa using h)]; simp [State.source]

end Sys2Proof.Machine
end

