-- ==== Sys2Proof/Laws/Commands.lean ====
section
/-! SUPPORT. The check phase and the completion: what each operand form answers, what `complete` answers, and once, over all
commands, everything that a completion can do (`exec_cases`). -/

namespace Sys2Proof.Machine

/-! ### Completion -/

@[simp] theorem complete_ok (s t : State) : complete s (.ok t) = .next (t.finish .ok) := rfl

@[simp] theorem complete_pure (s t : State) : complete s (pure t) = .next (t.finish .ok) := rfl

@[simp] theorem complete_error (s : State) (code : Code) : complete s (.error code) = .next (s.finish code) := rfl

@[simp] theorem bind_ok {α β : Type} (v : α) (f : α → Except Code β) : (Except.ok v >>= f) = f v := rfl

@[simp] theorem bind_pure_value {α β : Type} (v : α) (f : α → Except Code β) :
    ((pure v : Except Code α) >>= f) = f v := rfl

@[simp] theorem bind_error {α β : Type} (code : Code) (f : α → Except Code β) :
    ((Except.error code : Except Code α) >>= f) = .error code := rfl

@[simp] theorem raise_eq {α : Type} (code : Code) : (raise code : Except Code α) = .error code := rfl

/-- R124, R125. -/
theorem State.finish_ok (s : State) : s.finish .ok = s.afterOk := by
  simp [State.finish, State.afterOk, Status.completed, Code.bits]

/-- R123, R125. -/
theorem State.finish_error (s : State) {code : Code} (h : code ≠ .ok) : s.finish code = s.afterError code.bits := by
  simp [State.finish, State.afterError, Status.completed, h]

/-- The result code of a completion is 0 exactly for a success. -/
theorem Code.bits_eq_zero {code : Code} : code.bits = 0 ↔ code = .ok := by cases code <;> decide

/-! ### Checks -/

theorem modulus_of_ready {s : State} (h : s.ScalarReady) : modulus s = .ok s.q.toNat := by
  unfold modulus
  obtain ⟨h1, h2⟩ := h
  rw [if_neg (by omega)]

theorem modulus_of_bad {s : State} (h : s.q.toNat < 3 ∨ s.q.toNat % 2 = 0) : modulus s = .error .invalidInput := by
  simp [modulus, h]

/-- R129: the modulus check answers Q, or InvalidInput. -/
theorem modulus_cases (s : State) :
    (s.ScalarReady ∧ modulus s = .ok s.q.toNat) ∨
    ((s.q.toNat < 3 ∨ s.q.toNat % 2 = 0) ∧ modulus s = .error .invalidInput) := by
  by_cases h : s.q.toNat < 3 ∨ s.q.toNat % 2 = 0
  · exact .inr ⟨h, modulus_of_bad h⟩
  · have hr : s.ScalarReady := ⟨by omega, by omega⟩
    exact .inl ⟨hr, modulus_of_ready hr⟩

theorem element_of_lt {s : State} {q : Nat} {r : RegIx} (h : (s.readX r).toNat < q) :
    element s q r = .ok (s.readX r).toNat := by simp [element, h]

theorem element_of_le {s : State} {q : Nat} {r : RegIx} (h : q ≤ (s.readX r).toNat) :
    element s q r = .error .invalidInput := by simp [element, Nat.not_lt.2 h]

theorem element_cases (s : State) (q : Nat) (r : RegIx) :
    ((s.readX r).toNat < q ∧ element s q r = .ok (s.readX r).toNat) ∨
    (q ≤ (s.readX r).toNat ∧ element s q r = .error .invalidInput) := by
  rcases Nat.lt_or_ge (s.readX r).toNat q with h | h
  · exact .inl ⟨h, element_of_lt h⟩
  · exact .inr ⟨h, element_of_le h⟩

theorem context_of_valid {s : State} (h : s.status.ctxValid = true) : context s = .ok () := by simp [context, h]

theorem context_of_none {s : State} (h : s.status.ctxValid = false) : context s = .error .noContext := by
  simp [context, h]

theorem context_cases (s : State) :
    (s.status.ctxValid = true ∧ context s = .ok ()) ∨ (s.status.ctxValid = false ∧ context s = .error .noContext) := by
  cases h : s.status.ctxValid
  · exact .inr ⟨rfl, context_of_none h⟩
  · exact .inl ⟨rfl, context_of_valid h⟩

/-- R131: the range check of a source is its readiness. -/
theorem source_all_lt {s : State} {b : BufIx} :
    (s.source b).all (fun v => decide (v < s.modq)) = true ↔ s.PolyReady b := by
  rw [List.all_eq_true]
  simp only [State.source, List.mem_map, List.mem_range, State.degree, State.modq]
  exact ⟨fun h i hi => of_decide_eq_true (h _ ⟨i, hi, rfl⟩), fun h v ⟨i, hi, e⟩ => e ▸ decide_eq_true (h i hi)⟩

theorem elements_of_ready {s : State} {b : BufIx} (h : s.PolyReady b) : elements s b = .ok (s.source b) := by
  rw [elements, if_pos (source_all_lt.2 h)]

theorem elements_of_not_ready {s : State} {b : BufIx} (h : ¬ s.PolyReady b) : elements s b = .error .invalidInput := by
  rw [elements, if_neg (fun h' => h (source_all_lt.1 h'))]; rfl

theorem elements_cases (s : State) (b : BufIx) :
    (s.PolyReady b ∧ elements s b = .ok (s.source b)) ∨ (¬ s.PolyReady b ∧ elements s b = .error .invalidInput) := by
  by_cases h : s.PolyReady b
  · exact .inl ⟨h, elements_of_ready h⟩
  · exact .inr ⟨h, elements_of_not_ready h⟩

/-! ### CTXSET's checks -/

/-- For a positive 32-bit N, N & (N − 1) = 0 says that N is a power of two. -/
theorem and_pred_eq_zero_iff {n : Nat} (h : n ≠ 0) : n &&& (n - 1) = 0 ↔ ∃ k, n = 2 ^ k := by
  constructor
  · intro hz
    refine ⟨n.log2, ?_⟩
    have h1 : 2 ^ n.log2 ≤ n := Nat.log2_self_le h
    rcases h1.lt_or_eq with hlt | he
    · exfalso
      have h2 : n < 2 ^ (n.log2 + 1) := Nat.lt_log2_self
      have t1 : n.testBit n.log2 = true := Nat.testBit_log2 h
      have t2 : (n - 1).testBit n.log2 = true := by
        rw [Nat.testBit_eq_decide_div_mod_eq]
        have : (n - 1) / 2 ^ n.log2 = 1 := by
          refine Nat.div_eq_of_lt_le ?_ ?_ <;> rw [pow_succ] at * <;> omega
        simp [this]
      have := congrArg (fun m => m.testBit n.log2) hz
      simp [Nat.testBit_and, t1, t2] at this
    · exact he.symm
  · rintro ⟨k, rfl⟩
    exact Nat.and_two_pow_sub_one_eq_mod _ _ |>.trans (by simp)

theorem degreeOk_iff (s : State) : degreeOk s = true ↔ s.DegreeOk := by
  have e : s.n &&& (s.n - 1) = 0 ∧ s.n ≠ 0 ↔ ∃ k, s.n.toNat = 2 ^ k := by
    constructor
    · rintro ⟨h, h0⟩
      have h0' : s.n.toNat ≠ 0 := fun h => h0 (BitVec.eq_of_toNat_eq (by simpa using h))
      have hlt := s.n.isLt
      have := congrArg BitVec.toNat h
      rw [BitVec.toNat_and, BitVec.toNat_sub] at this
      have e : (2 ^ 32 - (1 : Word).toNat + s.n.toNat) % 2 ^ 32 = s.n.toNat - 1 := by
        change (2 ^ 32 - 1 + s.n.toNat) % 2 ^ 32 = _
        omega
      rw [e] at this
      exact (and_pred_eq_zero_iff h0').1 (by simpa using this)
    · rintro ⟨k, hk⟩
      have h0' : s.n.toNat ≠ 0 := by rw [hk]; positivity
      have hlt := s.n.isLt
      refine ⟨BitVec.eq_of_toNat_eq ?_, fun h => h0' (by rw [h]; rfl)⟩
      rw [BitVec.toNat_and, BitVec.toNat_sub]
      have e : (2 ^ 32 - (1 : Word).toNat + s.n.toNat) % 2 ^ 32 = s.n.toNat - 1 := by
        change (2 ^ 32 - 1 + s.n.toNat) % 2 ^ 32 = _
        omega
      rw [e]
      exact (and_pred_eq_zero_iff h0').2 ⟨k, hk⟩
  simp only [degreeOk, Bool.and_eq_true, decide_eq_true_eq, State.DegreeOk, ← e]
  tauto

/-- R180: the parameter checks pass exactly on good parameters. -/
theorem contextParameters_cases (s : State) :
    (s.ParametersOk ∧ contextParameters s = .ok ()) ∨
    (¬ s.ParametersOk ∧ contextParameters s = .error .invalidInput) := by
  have hd := degreeOk_iff s
  unfold contextParameters State.ParametersOk
  by_cases h1 : s.DegreeOk
  · simp only [hd.2 h1, Bool.not_true, Bool.false_eq_true, if_false, h1, true_and, raise_eq]
    split
    · exact .inr ⟨fun h => by omega, rfl⟩
    · split
      · exact .inr ⟨fun h => by omega, rfl⟩
      · split
        · exact .inr ⟨fun h => by omega, rfl⟩
        · exact .inl ⟨by omega, rfl⟩
  · have : degreeOk s = false := by
      cases h : degreeOk s
      · rfl
      · exact absurd (hd.1 h) h1
    exact .inr ⟨fun h => h1 h.1, by simp [this]⟩

/-- R181: the root checks pass exactly on good roots. -/
theorem contextRoots_cases (s : State) :
    (s.RootOk ∧ contextRoots s = .ok ()) ∨ (¬ s.RootOk ∧ contextRoots s = .error .invalidRoot) := by
  unfold contextRoots State.RootOk
  simp only [powMod_eq, raise_eq]
  split
  · rename_i h; exact .inr ⟨fun h' => h h'.1, rfl⟩
  · split
    · rename_i h; exact .inr ⟨fun h' => h h'.2, rfl⟩
    · rename_i h1 h2; exact .inl ⟨⟨not_not.1 h1, not_not.1 h2⟩, rfl⟩

/-! ### Everything a completion can do -/

/-- The results a command that passes its checks can write. -/
inductive Effect : Instr → State → State → Prop
  | none (s) : Effect .nop s s
  | register (i s d v) : i.isScalar = true → s.ScalarReady → Effect i s (s.writeX d v)
  | registers (w a b s v v') : a ≠ b → s.ScalarReady → Effect (.bfly w a b) s ((s.writeX a v).writeX b v')
  | context (s) : s.ParametersOk → s.RootOk → Effect .ctxset s s.loadContext
  | buffer (i s d vs) : polyDest i = some d → s.status.ctxValid = true → vs.length = s.degree →
      Effect i s (s.writeBuf d vs)

/-- A completion answers a next state: with an error of the command, or with one of its results written. -/
theorem exec_cases (i : Instr) (s : State) :
    (∃ code, code ≠ .ok ∧ exec i s = .next (s.finish code)) ∨
    (∃ t, Effect i s t ∧ exec i s = .next (t.finish .ok)) := by
  cases i with
  | nop => exact .inr ⟨s, .none s, rfl⟩
  | madd d a b =>
    simp only [exec, execMadd]
    rcases modulus_cases s with ⟨hq, e⟩ | ⟨_, e⟩ <;> rw [e]
    · rcases element_cases s s.q.toNat a with ⟨_, e⟩ | ⟨_, e⟩ <;> rw [bind_ok, e]
      · rcases element_cases s s.q.toNat b with ⟨_, e⟩ | ⟨_, e⟩ <;> rw [bind_ok, e]
        · exact .inr ⟨_, .register _ s d _ rfl hq, rfl⟩
        · exact .inl ⟨.invalidInput, by decide, rfl⟩
      · exact .inl ⟨.invalidInput, by decide, rfl⟩
    · exact .inl ⟨.invalidInput, by decide, rfl⟩
  | msub d a b =>
    simp only [exec, execMsub]
    rcases modulus_cases s with ⟨hq, e⟩ | ⟨_, e⟩ <;> rw [e]
    · rcases element_cases s s.q.toNat a with ⟨_, e⟩ | ⟨_, e⟩ <;> rw [bind_ok, e]
      · rcases element_cases s s.q.toNat b with ⟨_, e⟩ | ⟨_, e⟩ <;> rw [bind_ok, e]
        · exact .inr ⟨_, .register _ s d _ rfl hq, rfl⟩
        · exact .inl ⟨.invalidInput, by decide, rfl⟩
      · exact .inl ⟨.invalidInput, by decide, rfl⟩
    · exact .inl ⟨.invalidInput, by decide, rfl⟩
  | mmul d a b =>
    simp only [exec, execMmul]
    rcases modulus_cases s with ⟨hq, e⟩ | ⟨_, e⟩ <;> rw [e]
    · rcases element_cases s s.q.toNat a with ⟨_, e⟩ | ⟨_, e⟩ <;> rw [bind_ok, e]
      · rcases element_cases s s.q.toNat b with ⟨_, e⟩ | ⟨_, e⟩ <;> rw [bind_ok, e]
        · exact .inr ⟨_, .register _ s d _ rfl hq, rfl⟩
        · exact .inl ⟨.invalidInput, by decide, rfl⟩
      · exact .inl ⟨.invalidInput, by decide, rfl⟩
    · exact .inl ⟨.invalidInput, by decide, rfl⟩
  | mpow d a _ =>
    simp only [exec, execMpow]
    rcases modulus_cases s with ⟨hq, e⟩ | ⟨_, e⟩ <;> rw [e]
    · rcases element_cases s s.q.toNat a with ⟨_, e⟩ | ⟨_, e⟩ <;> rw [bind_ok, e]
      · exact .inr ⟨_, .register _ s d _ rfl hq, rfl⟩
      · exact .inl ⟨.invalidInput, by decide, rfl⟩
    · exact .inl ⟨.invalidInput, by decide, rfl⟩
  | minv d a =>
    simp only [exec, execMinv]
    rcases modulus_cases s with ⟨hq, e⟩ | ⟨_, e⟩ <;> rw [e]
    · rcases element_cases s s.q.toNat a with ⟨_, e⟩ | ⟨_, e⟩ <;> rw [bind_ok, e]
      · rw [bind_ok]
        split
        · exact .inl ⟨.notInvertible, by decide, rfl⟩
        · exact .inr ⟨_, .register _ s d _ rfl hq, rfl⟩
      · exact .inl ⟨.invalidInput, by decide, rfl⟩
    · exact .inl ⟨.invalidInput, by decide, rfl⟩
  | bfly w a b =>
    simp only [exec, execBfly]
    split
    · exact .inl ⟨.illegalCommand, by decide, rfl⟩
    · rename_i hab
      rcases modulus_cases s with ⟨hq, e⟩ | ⟨_, e⟩ <;> rw [e]
      · rcases element_cases s s.q.toNat w with ⟨_, e⟩ | ⟨_, e⟩ <;> rw [bind_ok, e]
        · rcases element_cases s s.q.toNat a with ⟨_, e⟩ | ⟨_, e⟩ <;> rw [bind_ok, e]
          · rcases element_cases s s.q.toNat b with ⟨_, e⟩ | ⟨_, e⟩ <;> rw [bind_ok, e]
            · exact .inr ⟨_, .registers w a b s _ _ hab hq, rfl⟩
            · exact .inl ⟨.invalidInput, by decide, rfl⟩
          · exact .inl ⟨.invalidInput, by decide, rfl⟩
        · exact .inl ⟨.invalidInput, by decide, rfl⟩
      · exact .inl ⟨.invalidInput, by decide, rfl⟩
  | ctxset =>
    simp only [exec, execCtxset]
    rcases contextParameters_cases s with ⟨hp, e⟩ | ⟨_, e⟩ <;> rw [e]
    · rcases contextRoots_cases s with ⟨hr, e⟩ | ⟨_, e⟩ <;> rw [bind_ok, e]
      · exact .inr ⟨_, .context s hp hr, rfl⟩
      · exact .inl ⟨.invalidRoot, by decide, rfl⟩
    · exact .inl ⟨.invalidInput, by decide, rfl⟩
  | bitrev d a =>
    simp only [exec, execBitrev]
    rcases context_cases s with ⟨hc, e⟩ | ⟨_, e⟩ <;> rw [e]
    · exact .inr ⟨_, .buffer _ s d (bitReverse (s.source a)) rfl hc (by simp), rfl⟩
    · exact .inl ⟨.noContext, by decide, rfl⟩
  | ntt d a =>
    simp only [exec, execNtt]
    rcases context_cases s with ⟨hc, e⟩ | ⟨_, e⟩ <;> rw [e]
    · rcases elements_cases s a with ⟨_, e⟩ | ⟨_, e⟩ <;> rw [bind_ok, e]
      · exact .inr ⟨_, .buffer _ s d _ rfl hc (by simp), rfl⟩
      · exact .inl ⟨.invalidInput, by decide, rfl⟩
    · exact .inl ⟨.noContext, by decide, rfl⟩
  | intt d a =>
    simp only [exec, execIntt]
    rcases context_cases s with ⟨hc, e⟩ | ⟨_, e⟩ <;> rw [e]
    · rcases elements_cases s a with ⟨_, e⟩ | ⟨_, e⟩ <;> rw [bind_ok, e]
      · exact .inr ⟨_, .buffer _ s d _ rfl hc (by simp), rfl⟩
      · exact .inl ⟨.invalidInput, by decide, rfl⟩
    · exact .inl ⟨.noContext, by decide, rfl⟩
  | pmul d a b =>
    simp only [exec, execPmul]
    rcases context_cases s with ⟨hc, e⟩ | ⟨_, e⟩ <;> rw [e]
    · rcases elements_cases s a with ⟨_, e⟩ | ⟨_, e⟩ <;> rw [bind_ok, e]
      · rcases elements_cases s b with ⟨_, e⟩ | ⟨_, e⟩ <;> rw [bind_ok, e]
        · exact .inr ⟨_, .buffer _ s d _ rfl hc (by simp), rfl⟩
        · exact .inl ⟨.invalidInput, by decide, rfl⟩
      · exact .inl ⟨.invalidInput, by decide, rfl⟩
    · exact .inl ⟨.noContext, by decide, rfl⟩
  | pscale d a =>
    simp only [exec, execPscale]
    rcases context_cases s with ⟨hc, e⟩ | ⟨_, e⟩ <;> rw [e]
    · rcases elements_cases s a with ⟨_, e⟩ | ⟨_, e⟩ <;> rw [bind_ok, e]
      · exact .inr ⟨_, .buffer _ s d _ rfl hc (by simp), rfl⟩
      · exact .inl ⟨.invalidInput, by decide, rfl⟩
    · exact .inl ⟨.noContext, by decide, rfl⟩
  | twist d a =>
    simp only [exec, execTwist]
    rcases context_cases s with ⟨hc, e⟩ | ⟨_, e⟩ <;> rw [e]
    · rcases elements_cases s a with ⟨_, e⟩ | ⟨_, e⟩ <;> rw [bind_ok, e]
      · exact .inr ⟨_, .buffer _ s d _ rfl hc (by simp), rfl⟩
      · exact .inl ⟨.invalidInput, by decide, rfl⟩
    · exact .inl ⟨.noContext, by decide, rfl⟩
  | untwist d a =>
    simp only [exec, execUntwist]
    rcases context_cases s with ⟨hc, e⟩ | ⟨_, e⟩ <;> rw [e]
    · rcases elements_cases s a with ⟨_, e⟩ | ⟨_, e⟩ <;> rw [bind_ok, e]
      · exact .inr ⟨_, .buffer _ s d _ rfl hc (by simp), rfl⟩
      · exact .inl ⟨.invalidInput, by decide, rfl⟩
    · exact .inl ⟨.noContext, by decide, rfl⟩
  | nconv d a b =>
    simp only [exec, execNconv]
    rcases context_cases s with ⟨hc, e⟩ | ⟨_, e⟩ <;> rw [e]
    · rcases elements_cases s a with ⟨_, e⟩ | ⟨_, e⟩ <;> rw [bind_ok, e]
      · rcases elements_cases s b with ⟨_, e⟩ | ⟨_, e⟩ <;> rw [bind_ok, e]
        · exact .inr ⟨_, .buffer _ s d _ rfl hc (by simp), rfl⟩
        · exact .inl ⟨.invalidInput, by decide, rfl⟩
      · exact .inl ⟨.invalidInput, by decide, rfl⟩
    · exact .inl ⟨.noContext, by decide, rfl⟩

end Sys2Proof.Machine
end

