-- ==== Sys2Proof/Laws/Encoding.lean ====
section
/-! SUPPORT. The fields of a command word: what each extraction gives on a word put together from its fields, and by
number. -/

namespace Sys2Proof

/-! ### The fields by number (R8, R91) -/

theorem fieldOpc_toNat (c : Word) : (fieldOpc c).toNat = c.toNat % 256 := by
  simp [fieldOpc, BitVec.extractLsb'_toNat]

theorem fieldA_toNat (c : Word) : (fieldA c).toNat = c.toNat / 256 % 16 := by
  simp [fieldA, BitVec.extractLsb'_toNat, Nat.shiftRight_eq_div_pow]

theorem fieldB_toNat (c : Word) : (fieldB c).toNat = c.toNat / 4096 % 16 := by
  simp [fieldB, BitVec.extractLsb'_toNat, Nat.shiftRight_eq_div_pow]

theorem fieldC_toNat (c : Word) : (fieldC c).toNat = c.toNat / 65536 % 16 := by
  simp [fieldC, BitVec.extractLsb'_toNat, Nat.shiftRight_eq_div_pow]

theorem fieldRsvd_toNat (c : Word) : (fieldRsvd c).toNat = c.toNat / 2 ^ 20 := by
  have := c.isLt
  simp [fieldRsvd, BitVec.extractLsb'_toNat, Nat.shiftRight_eq_div_pow]
  omega

/-! ### The fields of a word built from fields (R91) -/

theorem commandWord_toNat (opc : BitVec 8) (fa fb fc : BitVec 4) :
    (commandWord opc fa fb fc).toNat = fc.toNat * 2 ^ 16 + fb.toNat * 2 ^ 12 + fa.toNat * 2 ^ 8 + opc.toNat := by
  have h1 := opc.isLt; have h2 := fa.isLt; have h3 := fb.isLt; have h4 := fc.isLt
  rw [commandWord, BitVec.toNat_ofNat]; omega

@[simp] theorem fieldOpc_commandWord (opc : BitVec 8) (fa fb fc : BitVec 4) :
    fieldOpc (commandWord opc fa fb fc) = opc := by
  have h1 := opc.isLt
  apply BitVec.eq_of_toNat_eq; rw [fieldOpc_toNat, commandWord_toNat]; omega

@[simp] theorem fieldA_commandWord (opc : BitVec 8) (fa fb fc : BitVec 4) :
    fieldA (commandWord opc fa fb fc) = fa := by
  have h1 := opc.isLt; have h2 := fa.isLt
  apply BitVec.eq_of_toNat_eq; rw [fieldA_toNat, commandWord_toNat]; omega

@[simp] theorem fieldB_commandWord (opc : BitVec 8) (fa fb fc : BitVec 4) :
    fieldB (commandWord opc fa fb fc) = fb := by
  have h1 := opc.isLt; have h2 := fa.isLt; have h3 := fb.isLt
  apply BitVec.eq_of_toNat_eq; rw [fieldB_toNat, commandWord_toNat]; omega

@[simp] theorem fieldC_commandWord (opc : BitVec 8) (fa fb fc : BitVec 4) :
    fieldC (commandWord opc fa fb fc) = fc := by
  have h1 := opc.isLt; have h2 := fa.isLt; have h3 := fb.isLt; have h4 := fc.isLt
  apply BitVec.eq_of_toNat_eq; rw [fieldC_toNat, commandWord_toNat]; omega

@[simp] theorem fieldRsvd_commandWord (opc : BitVec 8) (fa fb fc : BitVec 4) :
    fieldRsvd (commandWord opc fa fb fc) = 0 := by
  have h1 := opc.isLt; have h2 := fa.isLt; have h3 := fb.isLt; have h4 := fc.isLt
  apply BitVec.eq_of_toNat_eq; rw [fieldRsvd_toNat, commandWord_toNat]
  change _ = 0
  omega

/-- A word is put together from its own fields when RSVD is 0. -/
theorem commandWord_fields (c : Word) (h : fieldRsvd c = 0) :
    commandWord (fieldOpc c) (fieldA c) (fieldB c) (fieldC c) = c := by
  have h0 : c.toNat / 2 ^ 20 = 0 := by rw [← fieldRsvd_toNat, h]; rfl
  apply BitVec.eq_of_toNat_eq
  rw [commandWord_toNat, fieldOpc_toNat, fieldA_toNat, fieldB_toNat, fieldC_toNat]; omega

/-! ### Indices as fields (R93) -/

@[simp] theorem regOf_regField (r : RegIx) : regOf (regField r) = r := by
  apply Fin.ext; simp [regOf, regField]

@[simp] theorem regField_regOf (f : BitVec 4) : regField (regOf f) = f := by
  apply BitVec.eq_of_toNat_eq; simp [regOf, regField]

@[simp] theorem bufOf_bufField (b : BufIx) : bufOf (bufField b) = .ok b := by
  have h := b.isLt
  have e : (bufField b).toNat = b.val := by simp [bufField, BitVec.toNat_ofNat]; omega
  unfold bufOf
  rw [dif_pos (by omega)]
  congr 1
  exact Fin.ext e

/-- R98: a field is a buffer index exactly below NBUF. -/
theorem bufOf_cases (f : BitVec 4) :
    (∃ b, bufOf f = .ok b ∧ bufField b = f ∧ f.toNat < 4) ∨ (bufOf f = .error .bufferIndex ∧ 4 ≤ f.toNat) := by
  unfold bufOf
  split
  · rename_i h
    refine .inl ⟨_, rfl, ?_, h⟩
    apply BitVec.eq_of_toNat_eq; simp [bufField]
  · rename_i h
    exact .inr ⟨rfl, by omega⟩

end Sys2Proof
end

