-- ==== Sys2Proof/Laws/Flags.lean ====
section
/-! SUPPORT. STATUS, IRQ_EN and INFO as numbers: every field at its place, and 0 elsewhere (R24, R26, R34). -/

namespace Sys2Proof.Machine

theorem Status.toWord_fields :
    ∀ (busy done err ovr ctxValid : Bool) (code : BitVec 4),
      (Status.toWord busy { done := done, err := err, ovr := ovr, ctxValid := ctxValid, lastCode := code }).toNat =
        busy.toNat + 2 * done.toNat + 4 * err.toNat + 8 * ovr.toNat + 16 * ctxValid.toNat + 256 * code.toNat := by
  decide

/-- R26: STATUS as a number. -/
theorem Status.toWord_toNat (busy : Bool) (st : Status) :
    (st.toWord busy).toNat =
      busy.toNat + 2 * st.done.toNat + 4 * st.err.toNat + 8 * st.ovr.toNat + 16 * st.ctxValid.toNat
        + 256 * st.lastCode.toNat :=
  Status.toWord_fields busy st.done st.err st.ovr st.ctxValid st.lastCode

/-- R26: bit 0 of STATUS is BUSY. -/
@[simp] theorem Status.toWord_bit_zero (busy : Bool) (st : Status) : (st.toWord busy)[0] = busy := by
  rw [← BitVec.getLsbD_eq_getElem]
  unfold BitVec.getLsbD
  rw [Status.toWord_toNat, Nat.testBit_zero]
  cases busy <;> simp <;> omega

theorem IrqEn.toWord_fields :
    ∀ doneIe errIe ovrIe : Bool,
      (IrqEn.toWord { doneIe := doneIe, errIe := errIe, ovrIe := ovrIe }).toNat =
        doneIe.toNat + 2 * errIe.toNat + 4 * ovrIe.toNat := by decide

/-- R34: IRQ_EN as a number. -/
theorem IrqEn.toWord_toNat (e : IrqEn) :
    e.toWord.toNat = e.doneIe.toNat + 2 * e.errIe.toNat + 4 * e.ovrIe.toNat :=
  IrqEn.toWord_fields e.doneIe e.errIe e.ovrIe

end Sys2Proof.Machine
end

