-- ==== Sys2Proof/Laws/PerInstr.lean ====
section
/-! SUPPORT. The family EncodeFields: the word of every command has its opcode in OPC and 0 in RSVD (R91, R94, R96). -/

namespace Sys2Proof.Laws.EncodeFields

def Statement (i : Instr) : Prop := fieldOpc (encode i) = opcode i ∧ fieldRsvd (encode i) = 0

theorem nop : Statement .nop := by simp [Statement, encode]
theorem madd (d a b : RegIx) : Statement (.madd d a b) := by simp [Statement, encode]
theorem msub (d a b : RegIx) : Statement (.msub d a b) := by simp [Statement, encode]
theorem mmul (d a b : RegIx) : Statement (.mmul d a b) := by simp [Statement, encode]
theorem mpow (d a e : RegIx) : Statement (.mpow d a e) := by simp [Statement, encode]
theorem minv (d a : RegIx) : Statement (.minv d a) := by simp [Statement, encode]
theorem bfly (w a b : RegIx) : Statement (.bfly w a b) := by simp [Statement, encode]
theorem ctxset : Statement .ctxset := by simp [Statement, encode]
theorem bitrev (d a : BufIx) : Statement (.bitrev d a) := by simp [Statement, encode]
theorem ntt (d a : BufIx) : Statement (.ntt d a) := by simp [Statement, encode]
theorem intt (d a : BufIx) : Statement (.intt d a) := by simp [Statement, encode]
theorem pmul (d a b : BufIx) : Statement (.pmul d a b) := by simp [Statement, encode]
theorem pscale (d a : BufIx) : Statement (.pscale d a) := by simp [Statement, encode]
theorem twist (d a : BufIx) : Statement (.twist d a) := by simp [Statement, encode]
theorem untwist (d a : BufIx) : Statement (.untwist d a) := by simp [Statement, encode]
theorem nconv (d a b : BufIx) : Statement (.nconv d a b) := by simp [Statement, encode]

end Sys2Proof.Laws.EncodeFields
end

