-- ==== Sys2Proof/Tests/Slice0.lean ====
section
/-! SUPPORT. Tests on fixed values, each expected value from the spec (95_test_vectors.md and the examples of the rules), and
a witness of the hypotheses of every statement that has them. -/

namespace Sys2Proof.Tests

open Sys2Proof Sys2Proof.Machine

/-! ### Helpers -/

/-- The state an outcome goes to. -/
def after : Result → Option State
  | .next t => some t
  | .fault _ => none
  | .refused _ => none

/-- The reset state with a modulus and a few registers written. -/
def scalars (q : Word) (xs : List (RegIx × Nat)) : State :=
  xs.foldl (fun s p => s.writeX p.1 p.2) { State.reset with q := q }

/-- Issue a word and complete it; give the result code and one register. -/
def scalarRun (c : Word) (s : State) (r : RegIx) : Option (BitVec 4 × Word) :=
  (after (completeStep (s.issue c))).map fun t => (t.status.lastCode, t.readX r)

/-- The reset state with the parameters of a context. -/
def parameters (q n w : Word) : State := { State.reset with q := q, n := n, omega := w }

/-- The context of row K1 (q = 17, n = 4, ω = 9), its tables as the row has them, with p0 and p1 given. -/
def ring (p0 p1 : List Nat) : State :=
  { State.reset with
    q := 17
    n := 4
    omega := 9
    omegaInv := 2
    omegaN := 13
    omegaNInv := 4
    nInv := 13
    status := { State.reset.status with ctxValid := true }
    mem := (((Memory.writeWords [] 0x4000 (toWords p0)).writeWords 0x5000 (toWords p1)).writeWords 0x8000
      (toWords [1, 9, 13, 15])).writeWords 0x9000 (toWords [1, 2, 4, 8]) }

/-- The context of row K1 with p0 = [1, 2, 3, 4] and p1 = [5, 6, 7, 8]. -/
def ring0 : State := ring [1, 2, 3, 4] [5, 6, 7, 8]

/-- Issue a word and complete it; give the result code and words 0..3 of a buffer. -/
def polyRun (c : Word) (s : State) (b : BufIx) : Option (BitVec 4 × List Nat) :=
  (after (completeStep (s.issue c))).map fun t => (t.status.lastCode, t.source b)

/-! ### WellFormed -/

/-- R99. -/
theorem test_bfly_same_register_is_ill_formed : (Instr.bfly 0 1 1).wf = false := by decide
theorem test_bfly_twiddle_register_may_be_a_result : (Instr.bfly 1 1 2).wf = true := by decide

/-! ### Decode: FC, FB, FA, OPC written out in bits, from R91 and R94 -/

theorem test_decode_nop : decode (0b000000000000_0000_0000_0000_00000000#32) = .ok .nop := by decide
theorem test_decode_madd : decode (0b000000000000_0011_0010_1111_00000001#32) = .ok (.madd 15 2 3) := by decide
theorem test_decode_msub : decode (0b000000000000_1011_0010_0001_00000010#32) = .ok (.msub 1 2 11) := by decide
theorem test_decode_mmul : decode (0b000000000000_0011_1010_0001_00000011#32) = .ok (.mmul 1 10 3) := by decide
theorem test_decode_mpow : decode (0b000000000000_0011_0010_0001_00000100#32) = .ok (.mpow 1 2 3) := by decide
theorem test_decode_minv : decode (0b000000000000_0000_1110_0001_00000101#32) = .ok (.minv 1 14) := by decide
theorem test_decode_bfly : decode (0b000000000000_1000_0100_0010_00000110#32) = .ok (.bfly 2 4 8) := by decide
theorem test_decode_ctxset : decode (0b000000000000_0000_0000_0000_00010000#32) = .ok .ctxset := by decide
theorem test_decode_bitrev : decode (0b000000000000_0000_0010_0011_00010001#32) = .ok (.bitrev 3 2) := by decide
theorem test_decode_ntt : decode (0b000000000000_0000_0001_0010_00010010#32) = .ok (.ntt 2 1) := by decide
theorem test_decode_intt : decode (0b000000000000_0000_0011_0001_00010011#32) = .ok (.intt 1 3) := by decide
theorem test_decode_pmul : decode (0b000000000000_0011_0010_0001_00010100#32) = .ok (.pmul 1 2 3) := by decide
theorem test_decode_pscale : decode (0b000000000000_0000_0011_0000_00010101#32) = .ok (.pscale 0 3) := by decide
theorem test_decode_twist : decode (0b000000000000_0000_0000_0011_00010110#32) = .ok (.twist 3 0) := by decide
theorem test_decode_untwist : decode (0b000000000000_0000_0001_0011_00010111#32) = .ok (.untwist 3 1) := by decide
theorem test_decode_nconv : decode (0b000000000000_0001_0000_0010_00011000#32) = .ok (.nconv 2 0 1) := by decide

/-- R95, and row T15. -/
theorem test_reserved_opcodes : decode 0x00000007#32 = .error .reservedOpcode ∧
    decode 0x0000000F#32 = .error .reservedOpcode ∧ decode 0x00000019#32 = .error .reservedOpcode ∧
    decode 0x000000FF#32 = .error .reservedOpcode := by decide
/-- R96, and row T15. -/
theorem test_reserved_bits : decode 0x00100000#32 = .error .reservedBits ∧
    decode 0x80032101#32 = .error .reservedBits := by decide
/-- R97, and rows T15 and S41. -/
theorem test_unused_field : decode 0x00001010#32 = .error .unusedField ∧
    decode 0x00032105#32 = .error .unusedField ∧ decode 0x00000100#32 = .error .unusedField ∧
    decode 0x00010112#32 = .error .unusedField := by decide
/-- R98, and row T15. -/
theorem test_buffer_index : decode 0x00000412#32 = .error .bufferIndex ∧
    decode 0x00004015#32 = .error .bufferIndex ∧ decode 0x00040218#32 = .error .bufferIndex := by decide
/-- R99, and row S47. -/
theorem test_same_register : decode 0x00011006#32 = .error .sameRegister := by decide

theorem test_decodeTableWord : decodeTableWord 32 0x00032101 = some (.madd 1 2 3) ∧
    decodeTableWord 32 0x00100000 = none := by decide
theorem test_withFetchWord_runs_the_word :
    (after (step (State.reset.withFetchWord 32 0x00032105))).map (fun t => (t.status.lastCode, t.cmd)) =
      some (6, 0x00032105) := by decide

/-! ### Scalar commands (rows S of 95_test_vectors.md §2.1) -/

/-- Row T2. -/
theorem test_nop : (after (completeStep (State.reset.issue 0))).map State.statusWord = some 0x2 ∧
    (State.reset.issue 0).statusWord = 0x1 := by decide
/-- Row T3: ERR is sticky. -/
theorem test_nop_keeps_err :
    (after (completeStep ({ State.reset with status := { State.reset.status with err := true } }.issue 0))).map
      State.statusWord = some 0x6 := by decide
/-- Row S4. -/
theorem test_madd_wide_sum :
    scalarRun 0x00032101 (scalars 4294967291 [(2, 4294967290), (3, 4294967290)]) 1 = some (0, 4294967289) := by decide
/-- Row S9. -/
theorem test_madd_same_register : scalarRun 0x00011101 (scalars 17 [(1, 9)]) 1 = some (0, 1) := by decide
/-- Row S14. -/
theorem test_msub_below_zero :
    scalarRun 0x00032102 (scalars 4294967291 [(2, 123456789), (3, 987654321)]) 1 = some (0, 3430769759) := by decide
/-- Row S15. -/
theorem test_msub_operand_q : scalarRun 0x00032102 (scalars 17 [(2, 3), (3, 17)]) 1 = some (2, 0) := by decide
/-- Row S20. -/
theorem test_mmul_wide_product :
    scalarRun 0x00032103 (scalars 4294967291 [(2, 123456789), (3, 987654321)]) 1 = some (0, 74795246) := by decide
/-- Row S22. -/
theorem test_mmul_without_modulus : scalarRun 0x00032103 (scalars 0 []) 1 = some (2, 0) := by decide
/-- Row S24. -/
theorem test_mpow_zero_to_the_zero : scalarRun 0x00032104 (scalars 17 []) 1 = some (0, 1) := by decide
/-- Row S29. -/
theorem test_mpow_large :
    scalarRun 0x00032104 (scalars 4294967291 [(2, 12345678), (3, 87654321)]) 1 = some (0, 3989769411) := by
  decide +kernel
/-- Row S39. -/
theorem test_minv_large : scalarRun 0x00002105 (scalars 4294967291 [(2, 123456789)]) 1 = some (0, 2196879611) := by
  decide +kernel
/-- Row S35. -/
theorem test_minv_of_zero : scalarRun 0x00002105 (scalars 17 []) 1 = some (1, 0) := by decide
/-- Row S46: the twiddle register is also a result. -/
theorem test_bfly_twiddle_is_result :
    scalarRun 0x00021106 (scalars 17 [(1, 4), (2, 3)]) 1 = some (0, 16) ∧
    scalarRun 0x00021106 (scalars 17 [(1, 4), (2, 3)]) 2 = some (0, 9) := by decide
/-- Row S43. -/
theorem test_bfly : scalarRun 0x00021006 (scalars 17 [(0, 3), (1, 5), (2, 7)]) 1 = some (0, 9) ∧
    scalarRun 0x00021006 (scalars 17 [(0, 3), (1, 5), (2, 7)]) 2 = some (0, 1) := by decide

/-! ### CTXSET (rows K of §2.2) -/

/-- Row K1. -/
theorem test_ctxset :
    (after (completeStep ((parameters 17 4 9).issue 0x10))).map
      (fun t => ([t.omegaInv, t.omegaN, t.omegaNInv, t.nInv], t.twiddles, t.inverseTwiddles, t.statusWord)) =
      some ([2, 13, 4, 13], [1, 9, 13, 15], [1, 2, 4, 8], 0x12) := by decide +kernel
/-- Rows K18, K16, K10 and K12. -/
theorem test_ctxset_errors :
    ([parameters 17 4 13, parameters 19 4 9, parameters 17 3 9, parameters 17 2048 9].map fun s =>
      (after (completeStep (s.issue 0x10))).map State.statusWord) =
      [some 0x306, some 0x206, some 0x206, some 0x206] := by decide +kernel

/-! ### Polynomial commands (rows V of §2.3, q = 17, n = 4, ω = 9) -/

/-- Row V3. -/
theorem test_bitrev : polyRun 0x00000111 ring0 1 = some (0, [1, 3, 2, 4]) := by decide +kernel
/-- Row V6. -/
theorem test_ntt : polyRun 0x00000112 ring0 1 = some (0, [10, 6, 15, 7]) := by decide +kernel
/-- Row V14. -/
theorem test_ntt_word_q : polyRun 0x00000112 (ring [1, 2, 17, 4] [5, 6, 7, 8]) 1 = some (2, [5, 6, 7, 8]) := by
  decide +kernel
/-- Row V15. -/
theorem test_intt : polyRun 0x00001213 (ring [] [10, 6, 15, 7]) 2 = some (0, [4, 8, 12, 16]) := by decide +kernel
/-- Row V18. -/
theorem test_pmul : polyRun 0x00010214 ring0 2 = some (0, [5, 12, 4, 15]) := by decide +kernel
/-- Row V22. -/
theorem test_pscale : polyRun 0x00000115 ring0 1 = some (0, [13, 9, 5, 1]) := by decide +kernel
/-- Row V23. -/
theorem test_twist : polyRun 0x00000216 ring0 2 = some (0, [1, 1, 5, 9]) := by decide +kernel
/-- Row V25. -/
theorem test_untwist : polyRun 0x00000217 ring0 2 = some (0, [13, 1, 3, 8]) := by decide +kernel
/-- Row V27. -/
theorem test_nconv : polyRun 0x00010218 ring0 2 = some (0, [12, 15, 2, 9]) := by decide +kernel
/-- Row V32: in place. -/
theorem test_nconv_square_in_place : polyRun 0x00000018 ring0 0 = some (0, [10, 14, 11, 3]) := by decide +kernel
/-- R166 and row V6: the network gives the same words as the sum. -/
theorem test_net : net 17 [1, 9, 13, 15] [1, 2, 3, 4] = [10, 6, 15, 7] := by decide +kernel
/-- Program P4: without a context. -/
theorem test_ntt_without_context :
    (after (completeStep ((parameters 17 4 13).issue 0x112))).map State.statusWord = some 0x706 := by decide

/-! ### Host port and reset (rows T of §2.5) -/

/-- Row T1. -/
theorem test_info : (hostStep (.read 0 0b1111) State.reset).answer = some (.read 0x010F4A20 .ok) := by decide
/-- Row T4. -/
theorem test_status_write :
    (hostStep (.write 8 0b1111 0x6) { State.reset with
      status := { State.reset.status with done := true, err := true, lastCode := 1 } }).statusWord = 0x100 := by decide
/-- Row T5. -/
theorem test_busy_cmd_write :
    (hostStep (.write 4 0b1111 0x10) (State.reset.issue 0)).statusWord = 0x9 ∧
    (hostStep (.write 4 0b1111 0x10) (State.reset.issue 0)).engine = .busy 0 := by decide
/-- Row T6. -/
theorem test_busy_x_write :
    (hostStep (.write 0x4C 0b1111 5) (State.reset.issue 0)).readX 3 = 0 ∧
    (hostStep (.write 0x4C 0b1111 5) (State.reset.issue 0)).status.ovr = true := by decide
/-- Row T7. -/
theorem test_q_write_drops_context : (hostStep (.write 0x10 0b1111 17) ring0).status.ctxValid = false := by decide
/-- Row T8. -/
theorem test_busy_q_write_keeps_context :
    (hostStep (.write 0x10 0b1111 17) (ring0.issue 0)).status.ctxValid = true := by decide
/-- Row T9. -/
theorem test_irq :
    { State.reset with status := { State.reset.status with done := true }, irqEn := IrqEn.ofWord 1 }.irq = true ∧
    (hostStep (.write 8 0b1111 2)
      { State.reset with status := { State.reset.status with done := true }, irqEn := IrqEn.ofWord 1 }).irq = false := by
  decide
/-- Row T11. -/
theorem test_misaligned_and_partial :
    (hostStep (.read 2 0b1111) State.reset).answer = some (.read 0 .error) ∧
    (hostStep (.read 0 0b0011) State.reset).answer = some (.read 0 .error) := by decide
/-- Row T12. -/
theorem test_read_only_writes :
    (hostStep (.write 0 0b1111 1) State.reset).answer = some (.write .error) ∧
    (hostStep (.write 0x20 0b1111 1) State.reset).answer = some (.write .error) ∧
    (hostStep (.write 0x8000 0b1111 1) State.reset).answer = some (.write .error) := by decide
/-- Row T13. -/
theorem test_reserved_reads :
    (hostStep (.read 0x1C 0b1111) State.reset).answer = some (.read 0 .error) ∧
    (hostStep (.read 0xA000 0b1111) State.reset).answer = some (.read 0 .error) := by decide
/-- R65, R66: lane 0 of word 1 of p2 is its low byte. -/
theorem test_little_endian :
    (hostStep (.write 0x6004 0b1111 0x11223344) State.reset).mem =
      [(0x6004, 0x44), (0x6005, 0x33), (0x6006, 0x22), (0x6007, 0x11)] := by decide
/-- R240: a reset edge drops the context and the running command and keeps the tables. -/
theorem test_reset_edge :
    (resetEdge (ring0.issue 0)).status.ctxValid = false ∧ (resetEdge (ring0.issue 0)).engine = .idle ∧
    (resetEdge (ring0.issue 0)).tw 1 = 9 := by decide +kernel
/-- R47, R67 and row K1: OMEGA_N, OMEGA_N_INV, TW[1] and TWI[1] at their offsets. -/
theorem test_context_reads :
    ([0x24, 0x28, 0x8004, 0x9004].map fun a => (hostStep (.read a 0b1111) ring0).answer) =
      [some (.read 13 .ok), some (.read 4 .ok), some (.read 9 .ok), some (.read 2 .ok)] := by decide +kernel
/-- R72, R120: a scheduled write of CMD issues the command. -/
theorem test_step_runs_a_host_transaction :
    (after (step { ring0 with schedule := [.host (.write 4 0b1111 0x112)] })).map State.engine = some (.busy 0x112) := by
  decide
/-- R16: with nothing scheduled a busy engine completes. -/
theorem test_step_completes : (after (step (ring0.issue 0x10))).map State.statusWord = some 0x12 := by decide +kernel

/-! ### Witnesses: concrete states and operands that meet the hypotheses of each statement -/

/-- A scalar state: q = 17, x0 = 3, x1 = 5, x2 = 9, x3 = 16. -/
def scalar0 : State := scalars 17 [(0, 3), (1, 5), (2, 9), (3, 16)]

/-- The scalar state with the largest prime modulus below 2^32, and operands q − 1 (row S4). -/
def scalarMax : State := scalars 4294967291 [(1, 4294967290), (2, 4294967290), (3, 4294967290)]

/-- The block with NMAX = 1 (R5). -/
def smallest : State := { State.reset with config := { log2Nmax := 0 } }

/-- s with one event scheduled. -/
def scheduled (s : State) (e : Event) : State := { s with schedule := [e] }

theorem scalar0_ready : scalar0.ScalarReady := ⟨by decide, by decide⟩
theorem scalarMax_ready : scalarMax.ScalarReady := ⟨by decide, by decide⟩
theorem prime_17 : scalar0.q.toNat.Prime := by
  have h : scalar0.q.toNat = 17 := by decide
  rw [h]; norm_num
theorem ring0_degree : ring0.DegreeOk := ⟨⟨2, by decide⟩, by decide⟩
theorem ring0_parameters : ring0.ParametersOk := ⟨ring0_degree, by decide, by decide, by decide⟩
theorem ring0_root : ring0.RootOk := ⟨by decide, by decide⟩
theorem ring0_contextOk : ring0.ContextOk where
  parameters := ring0_parameters
  root := ring0_root
  omegaInv := by decide +kernel
  omegaN := by decide
  omegaNInv := by decide
  nInv := by decide +kernel
  tw := by decide +kernel
  twi := by decide +kernel
theorem ring0_ready0 : ring0.PolyReady 0 := by unfold State.PolyReady; decide +kernel
theorem ring0_ready1 : ring0.PolyReady 1 := by unfold State.PolyReady; decide +kernel
theorem prime_ring0 : ring0.q.toNat.Prime := by
  have h : ring0.q.toNat = 17 := by decide
  rw [h]; norm_num
theorem ring0_inv : ring0.Inv where
  memory := by decide +kernel
  windows := by unfold mapped; decide +kernel
  command := by intro c h; cases h
  code := by decide
  context := fun _ => ring0_contextOk
  inReset := by intro h; cases h

theorem witness_DecodeOfEncodeIsTheInstruction : (Instr.bfly 0 14 15).wf = true ∧ (Instr.nconv 3 0 3).wf = true := by decide

theorem witness_EncodeOfDecodeIsTheWord : decode 0x000FE006#32 = .ok (.bfly 0 14 15) := by decide

/-- One illegal word for each disjunct, at the bounds of its range, and the idle block. -/
theorem witness_IllegalWordsCompleteWithIllegalCommand :
    IllegalWord 0x00100000#32 ∧ IllegalWord 0x00000007#32 ∧ IllegalWord 0x0000000F#32 ∧ IllegalWord 0x00000019#32 ∧
    IllegalWord 0x000000FF#32 ∧ IllegalWord 0x00000100#32 ∧ IllegalWord 0x00001010#32 ∧ IllegalWord 0x00010005#32 ∧
    IllegalWord 0x00000411#32 ∧ IllegalWord 0x00004018#32 ∧ IllegalWord 0x00040014#32 ∧ IllegalWord 0x00000006#32 ∧
    ¬ IllegalWord 0x00000018#32 ∧ State.reset.engine = .idle := by
  simp [IllegalWord, State.reset]

theorem witness_BitReversalReversesTheBits : (6 : Nat) < 2 ^ 3 ∧ 2 < 3 ∧ (0 : Nat) < 2 ^ 0 := by decide

/-- A running command with nothing scheduled and with its completion scheduled, an Illegal word both ways, a host
transaction, a reset edge and a release, and the events that are passed over. -/
theorem witness_StepRunsTheDecodedCommand :
    ((ring0.issue 0x112).rstN = true ∧ (ring0.issue 0x112).engine = .busy 0x112 ∧
      decode 0x112#32 = .ok (.ntt 1 0) ∧ (ring0.issue 0x112).schedule = []) ∧
    ((State.withFetchWord ring0 32 0x112).rstN = true ∧ (State.withFetchWord ring0 32 0x112).engine = .busy 0x112 ∧
      (State.withFetchWord ring0 32 0x112).schedule = .complete :: []) ∧
    ((ring0.issue 0x07).rstN = true ∧ (ring0.issue 0x07).engine = .busy 0x07 ∧
      decode 0x07#32 = .error .reservedOpcode ∧ (ring0.issue 0x07).schedule = [] ∧
      (State.withFetchWord ring0 32 0x07).schedule = .complete :: []) ∧
    (scheduled ring0 (.host (.read 0 0b1111))).rstN = true ∧
    (scheduled ring0 (.host (.read 0 0b1111))).schedule = .host (.read 0 0b1111) :: [] ∧
    (scheduled ring0 .resetEdge).schedule = .resetEdge :: [] ∧
    (scheduled ring0 .resetRelease).schedule = .resetRelease :: [] ∧
    (scheduled (resetEdge ring0) (.host (.read 0 0b1111))).rstN = false ∧
    (scheduled ring0 .complete).engine = .idle ∧ (scheduled ring0 .complete).schedule = .complete :: [] := by decide

theorem witness_WriteToIdleCmdIssues : scalar0.engine = .idle := by decide

theorem witness_WriteToBusyCmdIsIgnored : (scalar0.issue 0x32101).engine = .busy 0x32101 := by decide

theorem witness_IdleBlockWaits : ring0.engine = .idle ∧ ring0.schedule = [] := by decide

theorem witness_FailedCommandWritesOnlyStatus :
    ∃ t, exec (.minv 1 4) scalar0 = .next t ∧ t.status.lastCode ≠ 0 := ⟨_, rfl, by decide⟩

/-- A completion with each of the codes 0, 1, 2, 3, 6 and 7. -/
theorem witness_EachCommandRaisesOnlyItsErrors :
    (∃ t, exec .nop scalar0 = .next t ∧ t.status.lastCode = 0) ∧
    (∃ t, exec (.minv 1 4) scalar0 = .next t ∧ t.status.lastCode = 1) ∧
    (∃ t, exec (.madd 1 2 3) (scalars 17 [(2, 17)]) = .next t ∧ t.status.lastCode = 2) ∧
    (∃ t, exec .ctxset (parameters 17 4 13) = .next t ∧ t.status.lastCode = 3) ∧
    (∃ t, exec (.bfly 0 1 1) scalar0 = .next t ∧ t.status.lastCode = 6) ∧
    (∃ t, exec (.ntt 1 0) scalar0 = .next t ∧ t.status.lastCode = 7) :=
  ⟨⟨_, rfl, by decide⟩, ⟨_, rfl, by decide⟩, ⟨_, rfl, by decide⟩, ⟨_, rfl, by decide⟩, ⟨_, rfl, by decide⟩,
    ⟨_, rfl, by decide⟩⟩

theorem witness_NoCommandWritesTheHostRegisters :
    (∃ t, exec (.ntt 1 0) ring0 = .next t) ∧ (Instr.ntt 1 0).isScalar = false ∧ Instr.ntt 1 0 ≠ .ctxset ∧
    (∃ t, exec (.madd 1 2 3) scalar0 = .next t) ∧ polyDest (.madd 1 2 3) = none ∧ Instr.madd 1 2 3 ≠ .ctxset :=
  ⟨⟨_, rfl⟩, by decide, by decide, ⟨_, rfl⟩, by decide, by decide⟩

theorem witness_MaddAddsModQ :
    scalarMax.ScalarReady ∧ (scalarMax.readX 2).toNat < scalarMax.q.toNat ∧
    (scalarMax.readX 3).toNat < scalarMax.q.toNat := ⟨scalarMax_ready, by decide, by decide⟩

theorem witness_MsubSubtractsModQ :
    scalar0.ScalarReady ∧ (scalar0.readX 2).toNat < scalar0.q.toNat ∧ (scalar0.readX 3).toNat < scalar0.q.toNat :=
  ⟨scalar0_ready, by decide, by decide⟩

theorem witness_MmulMultipliesModQ :
    scalarMax.ScalarReady ∧ (scalarMax.readX 2).toNat < scalarMax.q.toNat ∧
    (scalarMax.readX 3).toNat < scalarMax.q.toNat := ⟨scalarMax_ready, by decide, by decide⟩

theorem witness_MpowRaisesModQ : scalar0.ScalarReady ∧ (scalar0.readX 4).toNat < scalar0.q.toNat :=
  ⟨scalar0_ready, by decide⟩

/-- Both clauses: x2 = 9, and x4 = 0. -/
theorem witness_MinvRaisesToQMinusTwo :
    scalar0.ScalarReady ∧ 0 < (scalar0.readX 2).toNat ∧ (scalar0.readX 2).toNat < scalar0.q.toNat ∧
    (scalar0.readX 4).toNat = 0 := ⟨scalar0_ready, by decide, by decide, by decide⟩

theorem witness_BflyIsTheButterfly :
    (1 : RegIx) ≠ 2 ∧ scalar0.ScalarReady ∧ (scalar0.readX 0).toNat < scalar0.q.toNat ∧
    (scalar0.readX 1).toNat < scalar0.q.toNat ∧ (scalar0.readX 2).toNat < scalar0.q.toNat :=
  ⟨by decide, scalar0_ready, by decide, by decide, by decide⟩

/-- The bad moduli 2 and 16, an operand equal to q, and the good modulus 3 with operand q − 1. -/
theorem witness_ScalarCommandsCheckModulusAndOperands :
    (Instr.bfly 0 1 2).isScalar = true ∧ (Instr.bfly 0 1 2).wf = true ∧ (scalars 2 []).q.toNat < 3 ∧
    (scalars 16 []).q.toNat % 2 = 0 ∧
    (∃ r ∈ (Instr.bfly 0 1 2).fieldElements, (scalars 17 [(2, 17)]).q.toNat ≤ ((scalars 17 [(2, 17)]).readX r).toNat) ∧
    (scalars 3 [(2, 2)]).ScalarReady ∧
    ∀ r ∈ (Instr.bfly 0 1 2).fieldElements, ((scalars 3 [(2, 2)]).readX r).toNat < (scalars 3 [(2, 2)]).q.toNat :=
  ⟨by decide, by decide, by decide, by decide, by decide, ⟨by decide, by decide⟩, by decide⟩

theorem witness_MinvOfPrimeModulusIsTheInverse :
    scalar0.ScalarReady ∧ scalar0.q.toNat.Prime ∧ 0 < (scalar0.readX 3).toNat ∧
    (scalar0.readX 3).toNat < scalar0.q.toNat := ⟨scalar0_ready, prime_17, by decide, by decide⟩

theorem witness_WithoutModulusAndContextCommandsFail :
    State.reset.q = 0 ∧ State.reset.status.ctxValid = false ∧ (Instr.madd 1 2 3).wf = true ∧
    (Instr.madd 1 2 3).isScalar = true ∧ (Instr.ntt 1 0).wf = true ∧ polyDest (.ntt 1 0) = some 1 := by decide

theorem witness_CtxsetBuildsTheContext : (parameters 17 4 9).ParametersOk ∧ (parameters 17 4 9).RootOk :=
  ⟨⟨⟨⟨2, by decide⟩, by decide⟩, by decide, by decide, by decide⟩, by decide, by decide⟩

/-- Row K16. -/
theorem witness_CtxsetChecksItsParameters : ¬ (parameters 19 4 9).ParametersOk := by
  rintro ⟨-, -, h, -⟩; revert h; decide

/-- Row K18. -/
theorem witness_CtxsetChecksItsRoot : (parameters 17 4 13).ParametersOk ∧ ¬ (parameters 17 4 13).RootOk :=
  ⟨⟨⟨⟨2, by decide⟩, by decide⟩, by decide, by decide, by decide⟩, by rintro ⟨-, h⟩; revert h; decide⟩

/-- Row K18. -/
theorem witness_FailedCtxsetLeavesNoContext :
    (parameters 17 4 13).Inv ∧ ∃ t, exec .ctxset (parameters 17 4 13) = .next t ∧ t.status.lastCode ≠ 0 := by
  refine ⟨⟨List.Pairwise.nil, ?_, ?_, by decide, ?_, ?_⟩, _, rfl, by decide⟩
  · intro c h; cases h
  · intro c h; cases h
  · intro h; cases h
  · intro h; cases h

theorem witness_ContextRootHasOrderTwoN : ring0.ContextOk := ring0_contextOk

theorem witness_BitrevPermutes : ring0.status.ctxValid = true ∧ ring0.n.toNat = 2 ^ 2 := by decide

theorem witness_NttIsTheForwardSum : ring0.status.ctxValid = true ∧ ring0.PolyReady 0 := ⟨by decide, ring0_ready0⟩

theorem witness_InttIsTheInverseSum : ring0.status.ctxValid = true ∧ ring0.PolyReady 1 := ⟨by decide, ring0_ready1⟩

theorem witness_PmulMultipliesPointwise :
    ring0.status.ctxValid = true ∧ ring0.PolyReady 0 ∧ ring0.PolyReady 1 := ⟨by decide, ring0_ready0, ring0_ready1⟩

theorem witness_ScalingCommandsMultiplyEachWord : ring0.status.ctxValid = true ∧ ring0.PolyReady 0 :=
  ⟨by decide, ring0_ready0⟩

theorem witness_NconvIsTheFiveSteps :
    ring0.status.ctxValid = true ∧ ring0.PolyReady 0 ∧ ring0.PolyReady 1 := ⟨by decide, ring0_ready0, ring0_ready1⟩

theorem witness_PolynomialCommandsNeedAContext :
    polyDest (.nconv 2 0 1) = some 2 ∧ State.reset.status.ctxValid = false := by decide

/-- Row V14, and BITREV. -/
theorem witness_PolynomialCommandsCheckTheirSources :
    (ring [1, 2, 17, 4] []).status.ctxValid = true ∧ 0 ∈ (Instr.ntt 1 0).checkedSources ∧
    (∃ k < (ring [1, 2, 17, 4] []).n.toNat,
      (ring [1, 2, 17, 4] []).q.toNat ≤ ((ring [1, 2, 17, 4] []).poly 0 k).toNat) ∧
    Instr.bitrev 1 0 = .bitrev 1 0 := ⟨by decide, by decide, ⟨2, by decide, by decide +kernel⟩, rfl⟩

theorem witness_BitrevTwiceIsTheIdentity : ring0.status.ctxValid = true ∧ ring0.ContextOk :=
  ⟨by decide, ring0_contextOk⟩

theorem witness_InverseTransformScaledIsTheIdentity :
    ring0.status.ctxValid = true ∧ ring0.ContextOk ∧ ring0.q.toNat.Prime ∧ ring0.PolyReady 0 :=
  ⟨by decide, ring0_contextOk, prime_ring0, ring0_ready0⟩

theorem witness_NconvIsTheNegacyclicProduct :
    ring0.status.ctxValid = true ∧ ring0.ContextOk ∧ ring0.q.toNat.Prime ∧ ring0.PolyReady 0 ∧ ring0.PolyReady 1 :=
  ⟨by decide, ring0_contextOk, prime_ring0, ring0_ready0, ring0_ready1⟩

theorem witness_NconvEqualsItsCommandSequence :
    ring0.status.ctxValid = true ∧ ring0.ContextOk ∧ ring0.PolyReady 0 ∧ ring0.PolyReady 1 ∧
    (2 : BufIx) ≠ 0 ∧ (2 : BufIx) ≠ 1 ∧ (3 : BufIx) ≠ 0 ∧ (3 : BufIx) ≠ 1 ∧ (2 : BufIx) ≠ 3 :=
  ⟨by decide, ring0_contextOk, ring0_ready0, ring0_ready1, by decide⟩

theorem witness_ButterflyNetworkEqualsTheSums :
    ring0.ContextOk ∧ [1, 2, 3, 16].length = ring0.n.toNat ∧ ∀ y ∈ [1, 2, 3, 16], y < ring0.q.toNat :=
  ⟨ring0_contextOk, by decide, by decide⟩

theorem witness_PartialOrMisalignedAccessIsRejected :
    (0b0111#4 ≠ 0b1111) ∧ (0x0002#16).toNat % 4 ≠ 0 := by decide

/-- Every range at its bounds, and a buffer index equal to NMAX and the last one, for NMAX = 1. -/
theorem witness_ReservedOffsetIsRejected :
    ([0x001C#16, 0x0030#16, 0x003C#16, 0x0080#16, 0x3FFC#16, 0xA000#16, 0xFFFC#16, 0x4004#16, 0x9FFC#16].all
      fun a => decide (a.toNat % 4 = 0)) = true ∧
    (0x4000 ≤ (0x4004#16).toNat ∧ (0x4004#16).toNat ≤ 0x9FFF ∧
      smallest.config.nmax ≤ (0x4004#16).toNat / 4 % 1024) ∧
    (0x4000 ≤ (0x9FFC#16).toNat ∧ (0x9FFC#16).toNat ≤ 0x9FFF ∧
      smallest.config.nmax ≤ (0x9FFC#16).toNat / 4 % 1024) := by decide

theorem witness_ReadOnlyWriteIsRejected :
    (0x0000#16).toNat ∈ [0x0000, 0x0020, 0x0024, 0x0028, 0x002C] ∧
    (0x002C#16).toNat ∈ [0x0000, 0x0020, 0x0024, 0x0028, 0x002C] ∧
    (0x8000 ≤ (0x8000#16).toNat ∧ (0x8000#16).toNat ≤ 0x9FFF) ∧
    (0x8000 ≤ (0x9FFF#16).toNat ∧ (0x9FFF#16).toNat ≤ 0x9FFF) := by decide

/-- The idle and the busy clause. -/
theorem witness_ContextRegisterWriteDropsTheContext :
    ring0.engine = .idle ∧ (ring0.issue 0).engine ≠ .idle ∧
    (0x0010#16).toNat ∈ [0x0010, 0x0014, 0x0018] ∧ (0x0018#16).toNat ∈ [0x0010, 0x0014, 0x0018] := by decide

/-- P[0][0] and P[3][1023] for NMAX = 1024, and P[0][1] for NMAX = 1. -/
theorem witness_BufferWindowStoresAndReadsWords :
    State.reset.engine = .idle ∧ (0x4000#16).toNat = 0x4000 + 4 * (1024 * (0 : BufIx).val + 0) ∧
    0 < State.reset.config.nmax ∧ (0x7FFC#16).toNat = 0x4000 + 4 * (1024 * (3 : BufIx).val + 1023) ∧
    1023 < State.reset.config.nmax ∧ smallest.engine = .idle ∧
    (0x4004#16).toNat = 0x4000 + 4 * (1024 * (0 : BufIx).val + 1) ∧ smallest.config.nmax ≤ 1 := by decide

theorem witness_ScalarRegistersReadAndWriteByHost :
    scalar0.engine = .idle ∧ (0x0040#16).toNat = 0x0040 + 4 * (0 : RegIx).val ∧
    (0x007C#16).toNat = 0x0040 + 4 * (15 : RegIx).val := by decide

/-- Result locations at the bounds of their ranges, and a register that is read as it is, busy and idle. -/
theorem witness_BusyReadsOfResultsAreUnspecified :
    (ring0.issue 0x112).engine = .busy 0x112 ∧
    (∀ a ∈ [0x0020, 0x002C, 0x0040, 0x007C, 0x4000, 0x9FFC], ResultOffset (ring0.issue 0x112).config a) ∧
    ((0x0010#16).toNat, (17 : Word)) ∈ [(0x0010, (ring0.issue 0x112).q)] ∧
    ((0x0010#16).toNat, (17 : Word)) ∈ [(0x0010, ring0.q)] := by
  unfold ResultOffset; decide

theorem witness_BusyWritesAreIgnored :
    (ring0.issue 0x112).engine = .busy 0x112 ∧
    ([0x0004#16, 0x0018#16, 0x0040#16, 0x007C#16, 0x4000#16, 0x7FFC#16].all
      fun a => decide (a.toNat % 4 = 0)) = true ∧
    (0x4000 ≤ (0x7FFC#16).toNat ∧ (0x7FFC#16).toNat ≤ 0x7FFF ∧
      (0x7FFC#16).toNat / 4 % 1024 < (ring0.issue 0x112).config.nmax) := by decide

/-- The idle block, and a busy one read where R250 makes no exception. -/
theorem witness_HostReadsHaveNoSideEffects :
    ring0.engine = .idle ∧ ¬ ResultOffset (ring0.issue 0x112).config (0x0010#16).toNat := by
  unfold ResultOffset; decide

/-- An idle block, each kind of running command (with a context, and a polynomial one without), and a block in reset. -/
theorem witness_ResetEdgeResetsRegistersAndKeepsMemory :
    ring0.engine = .idle ∧
    ((ring0.issue 0).engine = .busy 0 ∧ decode 0#32 = .ok .nop ∧ polyDest .nop = none ∧ Instr.nop ≠ .ctxset) ∧
    ((ring0.issue 0x112).engine = .busy 0x112 ∧ decode 0x112#32 = .ok (.ntt 1 0) ∧ polyDest (.ntt 1 0) = some 1 ∧
      (ring0.issue 0x112).status.ctxValid = true ∧ 3 < (ring0.issue 0x112).n.toNat) ∧
    ((scalar0.issue 0x112).engine = .busy 0x112 ∧ (scalar0.issue 0x112).status.ctxValid = false) ∧
    ((ring0.issue 0x10).engine = .busy 0x10 ∧ decode 0x10#32 = .ok .ctxset ∧
      3 < min (ring0.issue 0x10).n.toNat (ring0.issue 0x10).config.nmax) ∧
    ((ring0.issue 0x07).engine = .busy 0x07 ∧ decode 0x07#32 = .error .reservedOpcode) ∧
    (resetEdge ring0).rstN = false := by decide

theorem witness_StepKeepsTheInvariant : ring0.Inv ∧ ∃ t, step ring0 = .next t := ⟨ring0_inv, _, rfl⟩

theorem witness_CompletionIsIndependentOfBusyTransactions : (ring0.issue 0x112).engine = .busy 0x112 := by decide

/-- The first and the last word of each table for NMAX = 1024. -/
theorem witness_IdleReadsOfTheContextAnswerItsValues :
    ring0.engine = .idle ∧ 0 < ring0.config.nmax ∧ 1023 < ring0.config.nmax ∧
    (0x8000#16).toNat = 0x8000 + 4 * 0 ∧ (0x8FFC#16).toNat = 0x8000 + 4 * 1023 ∧
    (0x9000#16).toNat = 0x9000 + 4 * 0 ∧ (0x9FFC#16).toNat = 0x9000 + 4 * 1023 := by decide

end Sys2Proof.Tests
end

section
/-! PROOFS. Bit reversal (R11), and the schedule: what one step does with the next event (R15, R72, R122, R240). -/

namespace Sys2Proof.Machine

/-! ### Bit reversal -/

/-- R11. The low k bits of i are reversed, whatever i holds above them: bit k of rev_{k+1}(i) is bit 0 of i, and the bits
below it are rev_k(i / 2). -/
theorem testBit_bitRev {k j : Nat} (i : Nat) (hj : j < k) : (bitRev k i).testBit j = i.testBit (k - 1 - j) := by
  induction k generalizing i with
  | zero => exact absurd hj (Nat.not_lt_zero j)
  | succ k ih =>
    have bits : (bitRev (k + 1) i).testBit j =
        if j < k then (bitRev k (i / 2)).testBit j else (i % 2).testBit (j - k) :=
      Nat.testBit_two_pow_mul_add (i % 2) (bitRev_lt k (i / 2)) j
    rw [bits]
    split
    case isTrue low =>
      have shift : k + 1 - 1 - j = (k - 1 - j) + 1 := by omega
      rw [ih (i / 2) low, shift, Nat.testBit_add_one]
    case isFalse top =>
      obtain rfl : j = k := by omega
      simp

/-- Settles O5: the bits by induction on k; the bound is `bitRev_lt`. -/
theorem bitReversalReversesTheBits : Obligations.BitReversalReversesTheBits :=
  ⟨fun _ _ _ _ hj => testBit_bitRev _ hj, fun k i _ => bitRev_lt k i, rfl, fun _ => Nat.log2_two_pow⟩

/-! ### The completion of the engine -/

/-- R224. -/
theorem completeStep_of_idle {s : State} (h : s.engine = .idle) : completeStep s = .next s := by
  simp [completeStep, h]

/-- R122. -/
theorem completeStep_of_decode_ok {s : State} {c : Word} {i : Instr} (h : s.engine = .busy c) (hd : decode c = .ok i) :
    completeStep s = exec i s := by
  simp [completeStep, h, hd]

/-- R95–R99, R123. -/
theorem completeStep_of_illegal {s : State} {c : Word} (h : s.engine = .busy c) (hd : ∀ i, decode c ≠ .ok i) :
    completeStep s = .next (s.afterError 6) := by
  cases hc : decode c with
  | ok i => exact absurd hc (hd i)
  | error e =>
    have code : s.finish .illegalCommand = s.afterError 6 := s.finish_error (by decide)
    simp [completeStep, h, hc, code]

/-! ### One event -/

/-- R15: out of reset, a transaction is what the host port does. -/
theorem handle_host_of_running {s : State} (t : Transaction) (h : s.rstN = true) :
    handle (.host t) s = .next (hostStep t s) := by
  simp [handle, h]

/-- R15: out of reset, a completion is the engine's step. -/
theorem handle_complete_of_running {s : State} (h : s.rstN = true) : handle .complete s = completeStep s := by
  simp [handle, h]

/-- R240, log 6: in reset no transaction is performed. -/
theorem handle_host_of_inReset {s : State} (t : Transaction) (h : s.rstN = false) : handle (.host t) s = .next s := by
  simp [handle, h]

/-- R224, log 6: in reset or while Idle a completion does nothing. -/
theorem handle_complete_of_inactive {s : State} (h : s.rstN = false ∨ s.engine = .idle) :
    handle .complete s = .next s := by
  obtain inReset | idle := h
  · simp [handle, inReset]
  · simp [handle, completeStep_of_idle idle]

@[simp] theorem handle_resetEdge (s : State) : handle .resetEdge s = .next (resetEdge s) := rfl

@[simp] theorem handle_resetRelease (s : State) : handle .resetRelease s = .next { s with rstN := true } := rfl

/-! ### One step -/

/-- R16, log 4: with nothing scheduled the step is the engine's. -/
theorem step_of_schedule_nil {s : State} (h : s.schedule = []) : step s = handle .complete { s with answer := none } := by
  simp only [step, advance, h, State.unanswered]

/-- R72: the step is the event at the head of the schedule. -/
theorem step_of_schedule_cons {s : State} {e : Event} {rest : List Event} (h : s.schedule = e :: rest) :
    step s = handle e { s with schedule := rest, answer := none } := by
  simp only [step, advance, h]

/-- R122: the step that completes a running command, scheduled or not, is the completion. -/
theorem step_of_completion {s : State} (hr : s.rstN = true) :
    (s.schedule = [] → step s = completeStep { s with answer := none }) ∧
    (∀ rest, s.schedule = .complete :: rest → step s = completeStep { s with schedule := rest, answer := none }) :=
  ⟨fun h => (step_of_schedule_nil h).trans (handle_complete_of_running hr),
    fun _ h => (step_of_schedule_cons h).trans (handle_complete_of_running hr)⟩

/-- Settles O6: each clause is the event's own law, at the state without the event and the last answer. -/
theorem stepRunsTheDecodedCommand : Obligations.StepRunsTheDecodedCommand := by
  refine ⟨fun s c i hr hb hd => ?decoded, fun s c hr hb hd => ?illegal, fun s tr rest hr h => ?transaction,
    fun s rest h => ?edge, fun s rest h => ?release, fun s tr rest h => ?passedOver⟩
  case decoded =>
    obtain ⟨unscheduled, scheduled⟩ := step_of_completion hr
    exact ⟨fun h => (unscheduled h).trans (completeStep_of_decode_ok hb hd),
      fun rest h => (scheduled rest h).trans (completeStep_of_decode_ok hb hd)⟩
  case illegal =>
    obtain ⟨unscheduled, scheduled⟩ := step_of_completion hr
    exact ⟨fun h => (unscheduled h).trans (completeStep_of_illegal hb hd),
      fun rest h => (scheduled rest h).trans (completeStep_of_illegal hb hd)⟩
  case transaction => exact (step_of_schedule_cons h).trans (handle_host_of_running tr hr)
  case edge => exact (step_of_schedule_cons h).trans (handle_resetEdge _)
  case release => exact (step_of_schedule_cons h).trans (handle_resetRelease _)
  case passedOver =>
    obtain ⟨inReset, h⟩ | ⟨inactive, h⟩ := h
    · exact (step_of_schedule_cons h).trans (handle_host_of_inReset tr inReset)
    · exact (step_of_schedule_cons h).trans (handle_complete_of_inactive inactive)

end Sys2Proof.Machine
end

section
/-! PROOFS. Which code each command can report (R210), and what no command writes (R22, R25, R34–R37, R39–R42). -/

namespace Sys2Proof.Machine

/-! ### The codes of the checks -/

/-- A check phase raises no error outside `cs`. -/
def Raises {α : Type} (cs : List Code) (r : Except Code α) : Prop := ∀ code, r = .error code → code ∈ cs

theorem raises_ok {α : Type} {cs : List Code} (v : α) : Raises cs (.ok v) := nofun

theorem raises_error {α : Type} {cs : List Code} {code : Code} (h : code ∈ cs) :
    Raises cs (.error code : Except Code α) := by
  rintro _ ⟨⟩
  exact h

/-- Checks in a row raise what each of them raises (R126). -/
theorem Raises.bind {α β : Type} {cs : List Code} {r : Except Code α} {f : α → Except Code β} (hr : Raises cs r)
    (hf : ∀ v, Raises cs (f v)) : Raises cs (r >>= f) := by
  cases r with
  | ok v => exact hf v
  | error code => exact raises_error (hr code rfl)

/-- A check that passes, or raises its one error. -/
theorem raises_of_cases {α : Type} {cs : List Code} {passes fails : Prop} {r : Except Code α} {v : α} {code : Code}
    (h : (passes ∧ r = .ok v) ∨ (fails ∧ r = .error code)) (hcode : code ∈ cs) : Raises cs r := by
  obtain ⟨_, e⟩ | ⟨_, e⟩ := h <;> rw [e]
  · exact raises_ok v
  · exact raises_error hcode

section
variable {cs : List Code} (s : State)

theorem raises_modulus (h : Code.invalidInput ∈ cs) : Raises cs (modulus s) := raises_of_cases (modulus_cases s) h

theorem raises_element (q : Nat) (r : RegIx) (h : Code.invalidInput ∈ cs) : Raises cs (element s q r) :=
  raises_of_cases (element_cases s q r) h

theorem raises_context (h : Code.noContext ∈ cs) : Raises cs (context s) := raises_of_cases (context_cases s) h

theorem raises_elements (b : BufIx) (h : Code.invalidInput ∈ cs) : Raises cs (elements s b) :=
  raises_of_cases (elements_cases s b) h

theorem raises_contextParameters (h : Code.invalidInput ∈ cs) : Raises cs (contextParameters s) :=
  raises_of_cases (contextParameters_cases s) h

theorem raises_contextRoots (h : Code.invalidRoot ∈ cs) : Raises cs (contextRoots s) :=
  raises_of_cases (contextRoots_cases s) h

end

/-! ### The codes of the commands -/

/-- The 'raised by' column of R210, by command. A BFLY with FB = FC is the ill-formed term of log 18. -/
def errors : Instr → List Code
  | .nop => []
  | .madd _ _ _ => [.invalidInput]
  | .msub _ _ _ => [.invalidInput]
  | .mmul _ _ _ => [.invalidInput]
  | .mpow _ _ _ => [.invalidInput]
  | .minv _ _ => [.invalidInput, .notInvertible]
  | .bfly _ a b => if a = b then [.illegalCommand] else [.invalidInput]
  | .ctxset => [.invalidInput, .invalidRoot]
  | .bitrev _ _ => [.noContext]
  | .ntt _ _ => [.noContext, .invalidInput]
  | .intt _ _ => [.noContext, .invalidInput]
  | .pmul _ _ _ => [.noContext, .invalidInput]
  | .pscale _ _ => [.noContext, .invalidInput]
  | .twist _ _ => [.noContext, .invalidInput]
  | .untwist _ _ => [.noContext, .invalidInput]
  | .nconv _ _ _ => [.noContext, .invalidInput]

/-- A binary scalar command (R141–R143) raises only InvalidInput. -/
theorem raises_binaryScalar (s : State) (a b : RegIx) (f : Nat → Nat → Nat → State) :
    Raises [.invalidInput] (do
      let q ← modulus s
      let va ← element s q a
      let vb ← element s q b
      return f q va vb) :=
  (raises_modulus s (by simp)).bind fun q => (raises_element s q a (by simp)).bind fun _ =>
    (raises_element s q b (by simp)).bind fun _ => raises_ok _

/-- A polynomial command with one checked source (R164, R165, R184–R186). -/
theorem raises_unaryPoly (s : State) (a : BufIx) (f : List Nat → State) :
    Raises [.noContext, .invalidInput] (do
      context s
      let va ← elements s a
      return f va) :=
  (raises_context s (by simp)).bind fun _ => (raises_elements s a (by simp)).bind fun _ => raises_ok _

/-- A polynomial command with two checked sources (R183, R187). -/
theorem raises_binaryPoly (s : State) (a b : BufIx) (f : List Nat → List Nat → State) :
    Raises [.noContext, .invalidInput] (do
      context s
      let va ← elements s a
      let vb ← elements s b
      return f va vb) :=
  (raises_context s (by simp)).bind fun _ => (raises_elements s a (by simp)).bind fun _ =>
    (raises_elements s b (by simp)).bind fun _ => raises_ok _

theorem raises_minv (s : State) (a : RegIx) (f : Nat → Nat → State) :
    Raises [.invalidInput, .notInvertible] (do
      let q ← modulus s
      let va ← element s q a
      if va = 0 then raise .notInvertible else return f q va) := by
  refine (raises_modulus s (by simp)).bind fun q => (raises_element s q a (by simp)).bind fun va => ?_
  split
  · exact raises_error (by simp)
  · exact raises_ok _

/-- Every command is a check phase that raises only the errors of the command. -/
theorem exec_eq_complete (i : Instr) (s : State) : ∃ r, exec i s = complete s r ∧ Raises (errors i) r := by
  cases i with
  | nop => exact ⟨_, rfl, raises_ok _⟩
  | madd d a b => exact ⟨_, rfl, raises_binaryScalar s a b fun q va vb => s.writeX d (addMod va vb q)⟩
  | msub d a b => exact ⟨_, rfl, raises_binaryScalar s a b fun q va vb => s.writeX d (subMod va vb q)⟩
  | mmul d a b => exact ⟨_, rfl, raises_binaryScalar s a b fun q va vb => s.writeX d (mulMod va vb q)⟩
  | mpow d a e =>
    exact ⟨_, rfl, (raises_modulus s (by simp [errors])).bind fun q =>
      (raises_element s q a (by simp [errors])).bind fun _ => raises_ok _⟩
  | minv d a => exact ⟨_, rfl, raises_minv s a fun q va => s.writeX d (powMod va (q - 2) q)⟩
  | bfly w a b =>
    refine ⟨_, rfl, ?_⟩
    split
    case isTrue same => exact raises_error (by simp [errors, same])
    case isFalse different =>
      have input : Code.invalidInput ∈ errors (.bfly w a b) := by simp [errors, different]
      exact (raises_modulus s input).bind fun q => (raises_element s q w input).bind fun _ =>
        (raises_element s q a input).bind fun _ => (raises_element s q b input).bind fun _ => raises_ok _
  | ctxset =>
    exact ⟨_, rfl, (raises_contextParameters s (by simp [errors])).bind fun _ =>
      (raises_contextRoots s (by simp [errors])).bind fun _ => raises_ok _⟩
  | bitrev d a => exact ⟨_, rfl, (raises_context s (by simp [errors])).bind fun _ => raises_ok _⟩
  | ntt d a => exact ⟨_, rfl, raises_unaryPoly s a _⟩
  | intt d a => exact ⟨_, rfl, raises_unaryPoly s a _⟩
  | pmul d a b => exact ⟨_, rfl, raises_binaryPoly s a b _⟩
  | pscale d a => exact ⟨_, rfl, raises_unaryPoly s a _⟩
  | twist d a => exact ⟨_, rfl, raises_unaryPoly s a _⟩
  | untwist d a => exact ⟨_, rfl, raises_unaryPoly s a _⟩
  | nconv d a b => exact ⟨_, rfl, raises_binaryPoly s a b _⟩

/-- R210: a completion reports 0, or the code of an error of its command. -/
theorem exec_lastCode {i : Instr} {s t : State} (h : exec i s = .next t) :
    t.status.lastCode = 0 ∨ ∃ code ∈ errors i, t.status.lastCode = code.bits := by
  obtain ⟨r, e, hr⟩ := exec_eq_complete i s
  rw [h] at e
  cases r with
  | ok u => cases e; exact .inl rfl
  | error code => cases e; exact .inr ⟨code, hr code rfl, rfl⟩

theorem bits_of_mem_errors {i : Instr} {code : Code} (h : code ∈ errors i) :
    code.bits ∈ [1#4, 2#4, 3#4, 6#4, 7#4] := by
  have reported : code ∈ [.notInvertible, .invalidInput, .invalidRoot, .illegalCommand, .noContext] := by
    cases i <;> grind [errors]
  revert reported
  cases code <;> decide

/-- R210: the reserved codes are never reported. -/
theorem exec_lastCode_mem {i : Instr} {s t : State} (h : exec i s = .next t) :
    t.status.lastCode ∈ [0#4, 1#4, 2#4, 3#4, 6#4, 7#4] := by
  obtain e | ⟨code, hcode, e⟩ := exec_lastCode h <;> rw [e]
  · simp
  · exact List.mem_cons_of_mem _ (bits_of_mem_errors hcode)

/-- Settles O14: an error writes only STATUS, and each kind of result writes what `Effect` says. -/
theorem noCommandWritesTheHostRegisters : Obligations.NoCommandWritesTheHostRegisters := by
  intro i s t h
  obtain ⟨code, _, e⟩ | ⟨u, effect, e⟩ := exec_cases i s <;> cases h.symm.trans e
  case inl => exact ⟨⟨rfl, rfl, rfl, rfl, rfl, rfl, rfl, rfl, rfl, rfl⟩, fun _ => rfl, fun _ _ => rfl,
    fun _ => ⟨rfl, rfl, rfl, rfl, rfl⟩⟩
  case inr =>
    refine ⟨?host, ?scalar, ?memory, ?derived⟩
    case host => cases effect <;> exact ⟨rfl, rfl, rfl, rfl, rfl, rfl, rfl, rfl, rfl, rfl⟩
    case scalar =>
      intro notScalar
      cases effect with
      | none | context | buffer => rfl
      | register _ _ _ _ isScalar => exact absurd (isScalar.symm.trans notScalar) (by decide)
      | registers => cases notScalar
    case memory =>
      intro noDest notCtxset
      cases effect with
      | none | register | registers => rfl
      | context => exact absurd rfl notCtxset
      | buffer _ _ _ _ dest => exact absurd (dest.symm.trans noDest) (by simp)
    case derived =>
      intro notCtxset
      cases effect with
      | none | register | registers | buffer => exact ⟨rfl, rfl, rfl, rfl, rfl⟩
      | context => exact absurd rfl notCtxset

end Sys2Proof.Machine
end

section
/-! PROOFS. The host port (R47, R60–R67): where an offset leads, and what a read or a write of a location does. -/

namespace Sys2Proof.Machine

/-! ### The register map -/

theorem nmax_le (cfg : Config) : cfg.nmax ≤ 1024 :=
  Nat.pow_le_pow_right (n := 2) (by decide) (Nat.le_of_lt_succ cfg.log2Nmax.isLt)

/-- R22, R47. -/
theorem locate_x {cfg : Config} {a : Nat} {r : RegIx} (h : a = 0x0040 + 4 * r.val) : locate cfg a = some (.x r) := by
  have := r.isLt
  have index : Fin.ofNat 16 ((a - 0x40) / 4) = r := Fin.ext (by simp [Fin.ofNat]; omega)
  simp only [locate]
  rw [if_neg (by omega), if_pos (by omega), index]

/-- R67. -/
theorem locate_tw {cfg : Config} {a i : Nat} (hi : i < cfg.nmax) (h : a = 0x8000 + 4 * i) :
    locate cfg a = some (.tw i) := by
  have := nmax_le cfg
  have index : a / 4 % 1024 = i := by omega
  simp only [locate]
  rw [if_neg (by omega), if_neg (by omega), if_neg (by omega), if_neg (by omega), if_pos (by omega), index, if_pos hi]

/-- R67. -/
theorem locate_twi {cfg : Config} {a i : Nat} (hi : i < cfg.nmax) (h : a = 0x9000 + 4 * i) :
    locate cfg a = some (.twi i) := by
  have := nmax_le cfg
  have index : a / 4 % 1024 = i := by omega
  simp only [locate]
  rw [if_neg (by omega), if_neg (by omega), if_neg (by omega), if_neg (by omega), if_neg (by omega),
    if_pos (by omega), index, if_pos hi]

theorem locateRegister_ne_poly (a : Nat) (b : BufIx) (i : Nat) : locateRegister a ≠ some (.poly b i) := by
  unfold locateRegister
  split <;> simp

/-- R63: no offset leads to a buffer word at index NMAX or more. -/
theorem lt_nmax_of_locate_poly {cfg : Config} {a : Nat} {b : BufIx} {i : Nat} (h : locate cfg a = some (.poly b i)) :
    i < cfg.nmax := by
  simp only [locate] at h
  split_ifs at h
  · exact absurd h (locateRegister_ne_poly a b i)
  · cases h
  · cases h
    assumption
  · cases h
  · cases h

/-- R61: a whole aligned word. -/
theorem accessOk_of_aligned {addr : BitVec 16} (h : addr.toNat % 4 = 0) : accessOk addr 0b1111 = true := by
  simp [accessOk, h]

/-! ### Transactions -/

theorem State.busy_of_idle {s : State} (h : s.engine = .idle) : s.busy = false := by simp [State.busy, h]

theorem State.busy_of_not_idle {s : State} (h : s.engine ≠ .idle) : s.busy = true := by
  cases e : s.engine with
  | idle => exact absurd e h
  | busy c => simp [State.busy, e]

/-- R47, R60: a read that R250 does not except answers the value of the location. -/
theorem hostRead_of_locate {addr : BitVec 16} {s : State} {l : Location} (aligned : addr.toNat % 4 = 0)
    (at_l : locate s.config addr.toNat = some l) (specified : s.busy = false ∨ l.unspecifiedWhileBusy = false) :
    hostStep (.read addr 0b1111) s = { s with answer := some (.read (s.valueAt l) .ok) } := by
  simp only [hostStep, hostRead, accessOk_of_aligned aligned, if_true, at_l]
  rw [if_neg (by obtain free | fixed := specified <;> simp [*])]
  rfl

/-- R60: a write that is neither rejected nor ignored is stored. -/
theorem hostWrite_of_locate {addr : BitVec 16} {v : Word} {s : State} {l : Location} (aligned : addr.toNat % 4 = 0)
    (at_l : locate s.config addr.toNat = some l) (writable : l.readOnly = false)
    (accepted : s.busy = false ∨ l.acceptedWhileBusy = true) :
    hostStep (.write addr 0b1111 v) s = (s.store l v).answered (.write .ok) := by
  simp only [hostStep, hostWrite, accessOk_of_aligned aligned, if_true, at_l, writable, Bool.false_eq_true, if_false]
  rw [if_neg (by obtain free | always := accepted <;> simp [*])]

/-- R121, R251: a write that is ignored during a busy period sets OVR. -/
theorem hostWrite_of_busy {addr : BitVec 16} {v : Word} {s : State} {l : Location} (aligned : addr.toNat % 4 = 0)
    (at_l : locate s.config addr.toNat = some l) (writable : l.readOnly = false) (busy : s.busy = true)
    (ignored : l.acceptedWhileBusy = false) :
    hostStep (.write addr 0b1111 v) s =
      { s with status := { s.status with ovr := true }, answer := some (.write .ok) } := by
  simp only [hostStep, hostWrite, accessOk_of_aligned aligned, if_true, at_l, writable, Bool.false_eq_true, if_false]
  rw [if_pos (by simp [busy, ignored])]
  rfl

/-- What a transaction can do: answer, with a free word drawn or not; set OVR; or store in a location that takes the
write. -/
theorem hostStep_cases (tr : Transaction) (s : State) :
    (∃ answer draws, hostStep tr s = { s with answer := answer, draws := draws }) ∨
    hostStep tr s = { s with status := s.status.overrun, answer := some (.write .ok) } ∨
    ∃ addr l v, locate s.config addr = some l ∧ l.readOnly = false ∧ (s.busy = false ∨ l.acceptedWhileBusy = true) ∧
      hostStep tr s = (s.store l v).answered (.write .ok) := by
  cases tr with
  | read addr be =>
    simp only [hostStep, hostRead]
    split
    · split
      · exact .inl ⟨_, _, rfl⟩
      · split <;> exact .inl ⟨_, _, rfl⟩
    · exact .inl ⟨_, _, rfl⟩
  | write addr be v =>
    simp only [hostStep, hostWrite]
    split
    · split
      · exact .inl ⟨_, _, rfl⟩
      case h_2 l at_l =>
        split
        · exact .inl ⟨_, _, rfl⟩
        case isFalse writable =>
          split
          · exact .inr (.inl rfl)
          case isFalse accepted =>
            exact .inr (.inr ⟨_, l, v, at_l, by simpa using writable, by simpa [or_iff_not_imp_left] using accepted, rfl⟩)
    · exact .inl ⟨_, _, rfl⟩

/-! ### STATUS and IRQ_EN -/

/-- R33. -/
theorem Status.clearedBy_eq_ite (v : Word) (st : Status) :
    st.clearedBy v = { st with
      done := if v.getLsbD 1 then false else st.done
      err := if v.getLsbD 2 then false else st.err
      ovr := if v.getLsbD 3 then false else st.ovr } := by
  have keep (bit flag : Bool) : (flag && !bit) = if bit then false else flag := by cases bit <;> simp
  simp only [Status.clearedBy, keep]

/-- Settles O46: STATUS is at 0x0008 and accepts writes busy or not. -/
theorem statusWriteClearsDoneErrOvr : Obligations.StatusWriteClearsDoneErrOvr := by
  intro v s
  rw [hostWrite_of_locate (l := .status) rfl rfl rfl (.inr rfl), ← Status.clearedBy_eq_ite]
  rfl

/-- R34: a read of IRQ_EN gives back bits 2:0 of what was written. -/
theorem IrqEn.toWord_ofWord (v : Word) : (IrqEn.ofWord v).toWord = v &&& 7 := by
  apply BitVec.eq_of_toNat_eq
  have low : (v &&& 7).toNat = v.toNat % 8 := by
    rw [BitVec.toNat_and]
    exact Nat.and_two_pow_sub_one_eq_mod v.toNat 3
  rw [IrqEn.toWord_toNat, low]
  simp only [IrqEn.ofWord, BitVec.getLsbD, Nat.toNat_testBit]
  omega

/-- Settles O47: IRQ_EN is at 0x000C, accepts writes and answers reads busy or not. -/
theorem irqEnableGatesTheInterrupt : Obligations.IrqEnableGatesTheInterrupt := by
  intro v s
  refine ⟨_, hostWrite_of_locate (l := .irqEn) rfl rfl rfl (.inr rfl), rfl, ?readBack, ?level⟩
  case readBack =>
    rw [hostRead_of_locate (l := .irqEn) rfl rfl (.inr rfl), ← IrqEn.toWord_ofWord]
    rfl
  case level => simp [State.irq, State.answered, State.store, IrqEn.ofWord, or_assoc]

/-- R26: every bit of STATUS that holds a flag. -/
theorem Status.toWord_flags (busy : Bool) (st : Status) :
    (st.toWord busy).getLsbD 0 = busy ∧ (st.toWord busy).getLsbD 1 = st.done ∧ (st.toWord busy).getLsbD 2 = st.err ∧
      (st.toWord busy).getLsbD 3 = st.ovr ∧ (st.toWord busy).getLsbD 4 = st.ctxValid := by
  have bit {j : Nat} {flag : Bool} (h : (st.toWord busy).toNat / 2 ^ j % 2 = flag.toNat) :
      (st.toWord busy).getLsbD j = flag := by
    rw [BitVec.getLsbD, Nat.testBit_eq_decide_div_mod_eq, h]
    cases flag <;> rfl
  have := busy.toNat_le; have := st.done.toNat_le; have := st.err.toNat_le; have := st.ovr.toNat_le
  have := st.ctxValid.toNat_le
  refine ⟨bit ?_, bit ?_, bit ?_, bit ?_, bit ?_⟩ <;> rw [Status.toWord_toNat] <;> omega

/-- R26, R32: the reserved bits and LASTCODE. -/
theorem Status.toWord_upper (busy : Bool) (st : Status) :
    (st.toWord busy).toNat / 2 ^ 5 % 8 = 0 ∧ (st.toWord busy).toNat / 2 ^ 8 % 16 = st.lastCode.toNat ∧
      (st.toWord busy).toNat / 2 ^ 12 = 0 := by
  have := busy.toNat_le; have := st.done.toNat_le; have := st.err.toNat_le; have := st.ovr.toNat_le
  have := st.ctxValid.toNat_le; have := st.lastCode.isLt
  rw [Status.toWord_toNat]
  omega

/-- R46. -/
theorem State.busy_iff (s : State) : s.busy = true ↔ s.engine ≠ .idle :=
  ⟨fun busy idle => absurd (busy.symm.trans (State.busy_of_idle idle)) (by decide), State.busy_of_not_idle⟩

/-- Settles O48: STATUS is at 0x0008 and answers reads busy or not; its fields are `Status.toWord`'s. -/
theorem statusReadsItsFields : Obligations.StatusReadsItsFields := by
  intro s
  obtain ⟨busy, done, err, ovr, ctxValid⟩ := Status.toWord_flags s.busy s.status
  exact ⟨s.statusWord, hostRead_of_locate (l := .status) rfl rfl (.inr rfl), busy ▸ s.busy_iff, done, err, ovr, ctxValid,
    Status.toWord_upper s.busy s.status⟩

/-! ### The other registers -/

/-- Settles O49: the three registers accept writes of the idle block only. -/
theorem contextRegisterWriteDropsTheContext : Obligations.ContextRegisterWriteDropsTheContext := by
  intro v s
  refine ⟨fun idle => ?idle, fun notIdle addr at_addr => ?busy⟩
  case idle =>
    have free := State.busy_of_idle idle
    exact ⟨hostWrite_of_locate (l := .q) rfl rfl rfl (.inl free), hostWrite_of_locate (l := .n) rfl rfl rfl (.inl free),
      hostWrite_of_locate (l := .omega) rfl rfl rfl (.inl free)⟩
  case busy =>
    have busy := State.busy_of_not_idle notIdle
    simp only [List.mem_cons, List.not_mem_nil, or_false] at at_addr
    obtain e | e | e := at_addr
    · exact hostWrite_of_busy (l := .q) (by omega) (by rw [e]; rfl) rfl busy rfl
    · exact hostWrite_of_busy (l := .n) (by omega) (by rw [e]; rfl) rfl busy rfl
    · exact hostWrite_of_busy (l := .omega) (by omega) (by rw [e]; rfl) rfl busy rfl

/-- Settles O51: `locate_x` finds the register, and a write of it is `writeX`. -/
theorem scalarRegistersReadAndWriteByHost : Obligations.ScalarRegistersReadAndWriteByHost := by
  intro addr r v s idle at_addr
  have free := State.busy_of_idle idle
  have aligned : addr.toNat % 4 = 0 := by omega
  refine ⟨hostRead_of_locate aligned (locate_x at_addr) (.inl free), _,
    hostWrite_of_locate aligned (locate_x at_addr) rfl (.inl free), rfl, ?same, fun r' different => ?other⟩
  case same => exact (s.readX_writeX_self r v.toNat).trans (by simp)
  case other => exact s.readX_writeX_of_ne v.toNat different

/-- Settles O60: the derived registers by their offsets, the tables by `locate_tw` and `locate_twi`. -/
theorem idleReadsOfTheContextAnswerItsValues : Obligations.IdleReadsOfTheContextAnswerItsValues := by
  intro s idle
  have free := State.busy_of_idle idle
  refine ⟨hostRead_of_locate (l := .omegaInv) rfl rfl (.inl free), hostRead_of_locate (l := .omegaN) rfl rfl (.inl free),
    hostRead_of_locate (l := .omegaNInv) rfl rfl (.inl free), hostRead_of_locate (l := .nInv) rfl rfl (.inl free),
    fun addr i hi => ⟨fun h => ?tw, fun h => ?twi⟩⟩
  case tw => exact hostRead_of_locate (by omega) (locate_tw hi h) (.inl free)
  case twi => exact hostRead_of_locate (by omega) (locate_twi hi h) (.inl free)

end Sys2Proof.Machine
end

section
/-! PROOFS. The relations of a valid context (R45): what they say of ω, that CTXSET establishes them, and what keeps them. -/

namespace Sys2Proof.Machine

/-! ### The order of ω -/

/-- For n a power of two, ω^(2n) = 1 and ω^n = −1 ≠ 1 leave 2n as the only order. -/
theorem orderOf_of_rootOk {s : State} (degree : ∃ k, s.n.toNat = 2 ^ k) (hq : 3 ≤ s.q.toNat) (root : s.RootOk) :
    orderOf (s.omega.toNat : ZMod s.q.toNat) = 2 * s.n.toNat := by
  obtain ⟨k, hk⟩ := degree
  obtain ⟨power2n, powern⟩ := root
  have one : 1 % s.q.toNat = 1 := Nat.mod_eq_of_lt (by omega)
  have cast_eq_one (e : Nat) : (s.omega.toNat : ZMod s.q.toNat) ^ e = 1 ↔ s.omega.toNat ^ e % s.q.toNat = 1 := by
    have := ZMod.natCast_eq_natCast_iff' (s.omega.toNat ^ e) 1 s.q.toNat
    rwa [one, Nat.cast_pow, Nat.cast_one] at this
  rw [hk, ← pow_succ'] at power2n ⊢
  rw [hk] at powern
  refine orderOf_eq_prime_pow ?_ ((cast_eq_one _).2 power2n)
  rw [cast_eq_one, powern]
  omega

/-- Settles O29. -/
theorem contextRootHasOrderTwoN : Obligations.ContextRootHasOrderTwoN := by
  intro s h
  obtain ⟨⟨degree, _⟩, hq, _⟩ := h.parameters
  exact orderOf_of_rootOk degree hq h.root

/-! ### CTXSET -/

/-- A residue modulo Q is a word (R140). -/
theorem toNat_ofNat_mod (a : Nat) {q : Word} (h : 0 < q.toNat) : (BitVec.ofNat 32 (a % q.toNat)).toNat = a % q.toNat := by
  rw [BitVec.toNat_ofNat]
  exact Nat.mod_eq_of_lt ((Nat.mod_lt a h).trans q.isLt)

theorem getElem_toWords_powerTable {r n q i : Nat} (h : i < (toWords (powerTable r n q)).length) :
    (toWords (powerTable r n q))[i] = BitVec.ofNat 32 (r ^ i % q) := by
  simp [toWords, powerTable, powMod_eq]

theorem loadContext_tw {s : State} {i : Nat} (hn : s.n.toNat ≤ 1024) (hi : i < s.n.toNat) :
    s.loadContext.tw i = BitVec.ofNat 32 (s.omega.toNat ^ i % s.q.toNat) := by
  unfold State.tw State.loadContext
  simp only
  rw [Memory.readWord_writeWords_of_outside _ _ _ _ (.inl (by unfold twBase twiBase; omega)),
    Memory.readWord_writeWords _ _ _ _ (by simpa using hi), getElem_toWords_powerTable]

theorem loadContext_twi {s : State} {i : Nat} (hi : i < s.n.toNat) :
    s.loadContext.twi i =
      BitVec.ofNat 32 ((s.omega.toNat ^ (s.q.toNat - 2) % s.q.toNat) ^ i % s.q.toNat) := by
  unfold State.twi State.loadContext
  simp only
  rw [Memory.readWord_writeWords _ _ _ _ (by simpa using hi), getElem_toWords_powerTable, powMod_eq]

/-- R182: the results of CTXSET are the relations of R45. -/
theorem loadContext_contextOk {s : State} (parameters : s.ParametersOk) (root : s.RootOk) : s.loadContext.ContextOk := by
  obtain ⟨⟨_, degree⟩, _, _, _⟩ := id parameters
  have hq : 0 < s.q.toNat := by omega
  have hn : s.n.toNat ≤ 1024 := degree.trans (nmax_le s.config)
  have omegaInv : s.loadContext.omegaInv.toNat = s.omega.toNat ^ (s.q.toNat - 2) % s.q.toNat := by
    simp only [State.loadContext, powMod_eq, toNat_ofNat_mod _ hq]
  exact {
    parameters := parameters
    root := root
    omegaInv := omegaInv
    omegaN := by simp only [State.loadContext, mulMod, toNat_ofNat_mod _ hq, pow_two]
    omegaNInv := by
      rw [omegaInv]
      simp only [State.loadContext, mulMod, powMod_eq, toNat_ofNat_mod _ hq, pow_two]
    nInv := by simp only [State.loadContext, powMod_eq, toNat_ofNat_mod _ hq]
    tw := fun i hi => by
      rw [loadContext_tw (s := s) hn hi, toNat_ofNat_mod _ hq, State.loadContext_omega, State.loadContext_q]
    twi := fun i hi => by
      rw [loadContext_twi (s := s) hi, toNat_ofNat_mod _ hq, omegaInv, State.loadContext_q] }

/-! ### What keeps the context -/

/-- t has the parameters, the derived registers and the tables of s: all that R45 speaks of. Every equation but the last
holds by rfl where t is an update of s. -/
structure SameContext (s t : State) : Prop where
  config : t.config = s.config := by rfl
  q : t.q = s.q := by rfl
  n : t.n = s.n := by rfl
  omega : t.omega = s.omega := by rfl
  omegaInv : t.omegaInv = s.omegaInv := by rfl
  omegaN : t.omegaN = s.omegaN := by rfl
  omegaNInv : t.omegaNInv = s.omegaNInv := by rfl
  nInv : t.nInv = s.nInv := by rfl
  tables : ∀ k, twBase ≤ k → t.mem.readByte k = s.mem.readByte k

theorem readWord_of_sameContext {s t : State} (same : SameContext s t) {k : Nat} (hk : twBase ≤ k) :
    t.mem.readWord k = s.mem.readWord k := by
  have byte (j : Nat) : t.mem.readByte (k + j) = s.mem.readByte (k + j) := same.tables _ (by omega)
  simp only [Memory.readWord, byte, same.tables k hk]

theorem State.ContextOk.of_sameContext {s t : State} (h : s.ContextOk) (same : SameContext s t) : t.ContextOk := by
  have tw (i : Nat) : t.tw i = s.tw i := readWord_of_sameContext same (Nat.le_add_right _ _)
  have twi (i : Nat) : t.twi i = s.twi i :=
    readWord_of_sameContext same ((by decide : twBase ≤ twiBase).trans (Nat.le_add_right _ _))
  obtain ⟨parameters, root, omegaInv, omegaN, omegaNInv, nInv, table, inverseTable⟩ := h
  constructor <;> simpa only [State.ParametersOk, State.DegreeOk, State.RootOk, same.config, same.q, same.n, same.omega,
    same.omegaInv, same.omegaN, same.omegaNInv, same.nInv, tw, twi]

end Sys2Proof.Machine
end

section
/-! PROOFS. The invariant: it holds at reset, and every operation, event and step keeps it (R45, R46, R210, R240). -/

namespace Sys2Proof.Machine

/-- Settles O57: nothing is written, the engine is Idle, CTXVALID is 0 and rst_n is 1. -/
theorem resetSatisfiesTheInvariant : Obligations.ResetSatisfiesTheInvariant where
  memory := State.reset_mem_wf
  windows := by simp [State.reset]
  command := nofun
  code := by decide
  context := nofun
  inReset := nofun

/-! ### The memory -/

/-- The two memory clauses of the invariant. -/
def InWindows (cfg : Config) (m : Memory) : Prop := m.wf ∧ ∀ c ∈ m, mapped cfg c.1

/-- A block of words of P (w below 4), TW (4) or TWI (5), as far as NMAX goes, stays in the windows. -/
theorem InWindows.writeWords {cfg : Config} {m : Memory} (h : InWindows cfg m) {w first : Nat} {ws : List Word}
    (hw : w < 6) (hn : first + ws.length ≤ cfg.nmax) :
    InWindows cfg (m.writeWords (0x4000 + 4096 * w + 4 * first) ws) := by
  refine ⟨Memory.wf_writeWords h.1 _ _, fun c hc => ?_⟩
  obtain old | ⟨lo, hi⟩ := Memory.mem_writeWords hc
  · exact h.2 c old
  · have := nmax_le cfg
    refine ⟨by omega, by omega, by omega⟩

/-- A write of words of a buffer does not reach the tables. -/
theorem readByte_table_writeWords {cfg : Config} (m : Memory) {b : BufIx} {first : Nat} {ws : List Word}
    (hn : first + ws.length ≤ cfg.nmax) {k : Nat} (hk : twBase ≤ k) :
    (m.writeWords (bufBase b + 4 * first) ws).readByte k = m.readByte k := by
  have := nmax_le cfg
  have := b.isLt
  refine Memory.readByte_writeWords_of_outside m _ ws k (.inr ?_)
  unfold bufBase
  unfold twBase at hk
  omega

theorem State.Inv.inWindows {s : State} (h : s.Inv) : InWindows s.config s.mem := ⟨h.memory, h.windows⟩

/-- Out of reset the clause about reset is empty. -/
theorem inv_of_running {t : State} (running : t.rstN = true) (memory : InWindows t.config t.mem)
    (command : ∀ c, t.engine = .busy c → t.cmd = c ∧ t.status.done = false)
    (code : t.status.lastCode ∈ [0#4, 1#4, 2#4, 3#4, 6#4, 7#4]) (context : t.status.ctxValid = true → t.ContextOk) :
    t.Inv :=
  ⟨memory.1, memory.2, command, code, context, fun inReset => absurd (running.symm.trans inReset) (by decide)⟩

/-! ### Operations -/

/-- The fields of the model's own are in no clause. -/
theorem State.Inv.bookkeeping {s : State} (h : s.Inv) (schedule : List Event) (answer : Option Answer) (draws : Nat) :
    State.Inv { s with schedule := schedule, answer := answer, draws := draws } where
  memory := h.memory
  windows := h.windows
  command := h.command
  code := h.code
  context valid := (h.context valid).of_sameContext { tables := fun _ _ => rfl }
  inReset inReset := by
    have reset := h.inReset inReset
    rw [reset]

/-- A change of STATUS that neither sets DONE nor CTXVALID nor changes LASTCODE. -/
theorem State.Inv.withStatus {s : State} (h : s.Inv) (running : s.rstN = true) {st : Status}
    (done : s.status.done = false → st.done = false) (code : st.lastCode = s.status.lastCode)
    (context : st.ctxValid = true → s.status.ctxValid = true) : State.Inv { s with status := st } :=
  inv_of_running running h.inWindows (fun c busy => ⟨(h.command c busy).1, done (h.command c busy).2⟩) (code ▸ h.code)
    fun valid => (h.context (context valid)).of_sameContext { tables := fun _ _ => rfl }

theorem State.Inv.writeX {s : State} (h : s.Inv) (running : s.rstN = true) (r : RegIx) (v : Nat) : (s.writeX r v).Inv :=
  inv_of_running running h.inWindows h.command h.code
    fun valid => (h.context valid).of_sameContext { tables := fun _ _ => rfl }

/-- Words of a buffer below NMAX. -/
theorem State.Inv.writeBufferWords {s : State} (h : s.Inv) (running : s.rstN = true) {b : BufIx} {first : Nat}
    {ws : List Word} (hn : first + ws.length ≤ s.config.nmax) : (s.writeMem (bufBase b + 4 * first) ws).Inv :=
  inv_of_running running (h.inWindows.writeWords (b.isLt.trans (by decide)) hn) h.command h.code
    fun valid => (h.context valid).of_sameContext { tables := fun _ hk => readByte_table_writeWords s.mem hn hk }

/-- R120: CMD holds the issued word, and DONE is 0. -/
theorem State.Inv.issue {s : State} (h : s.Inv) (running : s.rstN = true) (c : Word) : (s.issue c).Inv :=
  inv_of_running running h.inWindows (fun _ busy => ⟨Engine.busy.inj busy, rfl⟩) h.code
    fun valid => (h.context valid).of_sameContext { tables := fun _ _ => rfl }

/-- R123–R125: the engine is Idle. -/
theorem State.Inv.finish {s : State} (h : s.Inv) (running : s.rstN = true) {code : Code}
    (reported : code.bits ∈ [0#4, 1#4, 2#4, 3#4, 6#4, 7#4]) : (s.finish code).Inv :=
  inv_of_running running h.inWindows nofun reported
    fun valid => (h.context valid).of_sameContext { tables := fun _ _ => rfl }

theorem State.Inv.degree_le {s : State} (h : s.Inv) (valid : s.status.ctxValid = true) : s.degree ≤ s.config.nmax := by
  obtain ⟨⟨_, degree⟩, _⟩ := (h.context valid).parameters
  exact degree

/-- R182: the tables of CTXSET have at most NMAX words. -/
theorem State.Inv.loadContext {s : State} (h : s.Inv) (running : s.rstN = true) (parameters : s.ParametersOk)
    (root : s.RootOk) : s.loadContext.Inv := by
  obtain ⟨⟨_, degree⟩, _⟩ := id parameters
  refine inv_of_running running ?_ h.command h.code fun _ => loadContext_contextOk parameters root
  exact (h.inWindows.writeWords (w := 4) (first := 0) (by decide) (by simpa using degree)).writeWords
    (w := 5) (first := 0) (by decide) (by simpa using degree)

/-! ### Commands -/

theorem Effect.rstN_eq {i : Instr} {s t : State} (effect : Effect i s t) : t.rstN = s.rstN := by cases effect <;> rfl

theorem State.Inv.effect {i : Instr} {s t : State} (h : s.Inv) (running : s.rstN = true) (effect : Effect i s t) :
    t.Inv := by
  cases effect with
  | none => exact h
  | register => exact h.writeX running _ _
  | registers => exact (h.writeX running _ _).writeX running _ _
  | context => exact h.loadContext running ‹_› ‹_›
  | buffer i s d vs _ valid length =>
    exact h.writeBufferWords (first := 0) running (by simpa [length] using h.degree_le valid)

theorem State.Inv.exec {i : Instr} {s t : State} (h : s.Inv) (running : s.rstN = true) (done : exec i s = .next t) :
    t.Inv := by
  have reported := exec_lastCode_mem done
  obtain ⟨code, _, e⟩ | ⟨u, effect, e⟩ := exec_cases i s <;> cases done.symm.trans e
  · exact h.finish running reported
  · exact (h.effect running effect).finish (effect.rstN_eq.trans running) reported

theorem State.Inv.completeStep {s t : State} (h : s.Inv) (running : s.rstN = true) (done : completeStep s = .next t) :
    t.Inv := by
  cases engine : s.engine with
  | idle =>
    cases (completeStep_of_idle engine).symm.trans done
    exact h
  | busy c =>
    by_cases legal : ∃ i, decode c = .ok i
    · obtain ⟨i, hi⟩ := legal
      exact h.exec running ((completeStep_of_decode_ok engine hi).symm.trans done)
    · have illegal := completeStep_of_illegal engine (not_exists.1 legal)
      cases illegal.symm.trans done
      have code : s.finish .illegalCommand = s.afterError 6 := s.finish_error (by decide)
      exact code ▸ h.finish running (by decide)

/-! ### The host port -/

theorem State.Inv.store {s : State} (h : s.Inv) (running : s.rstN = true) {addr : Nat} {l : Location}
    (at_l : locate s.config addr = some l) (v : Word) : (s.store l v).Inv := by
  cases l with
  | info | omegaInv | omegaN | omegaNInv | nInv | tw | twi => exact h
  | cmd => exact h.issue running v
  | status => exact h.withStatus running (by simp +contextual) rfl id
  | irqEn =>
    exact inv_of_running running h.inWindows h.command h.code
      fun valid => (h.context valid).of_sameContext { tables := fun _ _ => rfl }
  | q | n | omega => exact inv_of_running running h.inWindows h.command h.code nofun
  | x r => exact h.writeX running r v.toNat
  | poly b i => exact h.writeBufferWords running (lt_nmax_of_locate_poly at_l)

theorem State.Inv.hostStep {s : State} (h : s.Inv) (running : s.rstN = true) (tr : Transaction) : (hostStep tr s).Inv := by
  obtain ⟨answer, draws, e⟩ | e | ⟨addr, l, v, at_l, _, _, e⟩ := hostStep_cases tr s <;> rw [e]
  · exact h.bookkeeping s.schedule answer draws
  · exact (h.withStatus running (st := s.status.overrun) id rfl id).bookkeeping s.schedule _ s.draws
  · exact (h.store running at_l v).bookkeeping _ _ _

/-! ### Reset -/

/-- R241: what an abandoned command can leave unspecified. -/
theorem abandon_cases (s : State) :
    abandon s = s ∨ (∃ d, s.status.ctxValid = true ∧ abandon s = s.scramble (bufBase d) s.degree) ∨
    abandon s = (s.scramble twBase (min s.n.toNat s.config.nmax)).scramble twiBase (min s.n.toNat s.config.nmax) := by
  unfold abandon
  split
  · exact .inl rfl
  · split
    · exact .inl rfl
    · unfold abandonInstr
      split
      · split
        · exact .inr (.inl ⟨_, ‹_›, rfl⟩)
        · exact .inl rfl
      · split
        · exact .inr (.inr rfl)
        · exact .inl rfl

theorem InWindows.scramble {s : State} (h : InWindows s.config s.mem) {w k : Nat} (hw : w < 6) (hk : k ≤ s.config.nmax) :
    InWindows s.config (s.scramble (0x4000 + 4096 * w) k).mem :=
  h.writeWords (first := 0) hw (by simpa using hk)

theorem State.Inv.abandon_inWindows {s : State} (h : s.Inv) : InWindows s.config (abandon s).mem := by
  obtain e | ⟨d, valid, e⟩ | e := abandon_cases s <;> rw [e]
  · exact h.inWindows
  · exact h.inWindows.scramble (d.isLt.trans (by decide)) (h.degree_le valid)
  · exact (h.inWindows.scramble (w := 4) (by decide) (min_le_right _ _)).scramble (s := s.scramble _ _) (w := 5)
      (by decide) (min_le_right _ _)

/-- R240: every register at its reset value, and memory in its windows. -/
theorem State.Inv.resetEdge {s : State} (h : s.Inv) : (resetEdge s).Inv where
  memory := h.abandon_inWindows.1
  windows := h.abandon_inWindows.2
  command := nofun
  code := by simp [Machine.resetEdge, State.reset]
  context := nofun
  inReset _ := rfl

theorem State.Inv.resetRelease {s : State} (h : s.Inv) : (resetRelease s).Inv :=
  inv_of_running rfl h.inWindows h.command h.code
    fun valid => (h.context valid).of_sameContext { tables := fun _ _ => rfl }

/-! ### Events and steps -/

theorem State.Inv.handle {e : Event} {s t : State} (h : s.Inv) (next : handle e s = .next t) : t.Inv := by
  cases running : s.rstN with
  | false =>
    cases e with
    | host tr => cases (handle_host_of_inReset tr running).symm.trans next; exact h
    | complete => cases (handle_complete_of_inactive (.inl running)).symm.trans next; exact h
    | resetEdge => cases next; exact h.resetEdge
    | resetRelease => cases next; exact h.resetRelease
  | true =>
    cases e with
    | host tr => cases (handle_host_of_running tr running).symm.trans next; exact h.hostStep running tr
    | complete => exact h.completeStep running ((handle_complete_of_running running).symm.trans next)
    | resetEdge => cases next; exact h.resetEdge
    | resetRelease => cases next; exact h.resetRelease

/-- Settles O58: a step is one event, at the state without the event and the last answer. -/
theorem stepKeepsTheInvariant : Obligations.StepKeepsTheInvariant := by
  intro s t h next
  cases schedule : s.schedule with
  | nil => exact (h.bookkeeping s.schedule none s.draws).handle ((step_of_schedule_nil schedule).symm.trans next)
  | cons e rest => exact (h.bookkeeping rest none s.draws).handle ((step_of_schedule_cons schedule).symm.trans next)

end Sys2Proof.Machine
end

section
/-! PROOFS. The host port again: the transactions it rejects (R61, R63, R64), the polynomial window (R66), and what a read
changes (R68). -/

namespace Sys2Proof.Machine

/-! ### The register map -/

/-- R61. -/
theorem accessOk_iff {addr : BitVec 16} {be : BitVec 4} :
    accessOk addr be = true ↔ be = 0b1111 ∧ addr.toNat % 4 = 0 := by
  simp [accessOk]

/-- R63: the reserved offsets among the named registers. -/
theorem locate_of_register_gap {cfg : Config} {a : Nat} (aligned : a % 4 = 0)
    (gap : a = 0x001C ∨ (0x0030 ≤ a ∧ a ≤ 0x003C)) : locate cfg a = none := by
  simp only [locate]
  rw [if_pos (by omega)]
  unfold locateRegister
  split
  case h_12 => rfl
  all_goals omega

/-- R63: the reserved offsets between the scalar registers and the windows, and above the windows. -/
theorem locate_of_outside_windows {cfg : Config} {a : Nat} (outside : (0x0080 ≤ a ∧ a ≤ 0x3FFF) ∨ 0xA000 ≤ a) :
    locate cfg a = none := by
  simp only [locate]
  rw [if_neg (by omega), if_neg (by omega)]
  obtain below | above := outside
  · rw [if_pos (by omega)]
  · rw [if_neg (by omega), if_neg (by omega), if_neg (by omega), if_neg (by omega)]

/-- R63, R66, R67: a window holds no word at index NMAX or more. -/
theorem locate_of_nmax_le {cfg : Config} {a : Nat} (low : 0x4000 ≤ a) (beyond : cfg.nmax ≤ a / 4 % 1024) :
    locate cfg a = none := by
  simp only [locate, if_neg (Nat.not_lt.2 beyond), ite_self]
  rw [if_neg (by omega), if_neg (by omega)]

/-- R66. -/
theorem locate_poly {cfg : Config} {a i : Nat} {b : BufIx} (hi : i < cfg.nmax)
    (h : a = 0x4000 + 4 * (1024 * b.val + i)) : locate cfg a = some (.poly b i) := by
  have := nmax_le cfg
  have := b.isLt
  have word : a / 4 % 1024 = i := by omega
  have buffer : Fin.ofNat 4 (a / 4096) = b := Fin.ext (by simp [Fin.ofNat]; omega)
  simp only [locate]
  rw [if_neg (by omega), if_neg (by omega), if_neg (by omega), if_pos (by omega), word, if_pos hi, buffer]

/-- R64: the read-only registers, and the windows of TW and TWI. -/
theorem readOnly_of_locate {cfg : Config} {a : Nat} {l : Location}
    (h : a ∈ [0x0000, 0x0020, 0x0024, 0x0028, 0x002C] ∨ (0x8000 ≤ a ∧ a ≤ 0x9FFF))
    (at_l : locate cfg a = some l) : l.readOnly = true := by
  obtain register | table := h
  · simp only [List.mem_cons, List.not_mem_nil, or_false] at register
    obtain rfl | rfl | rfl | rfl | rfl := register <;> cases at_l <;> rfl
  · simp only [locate] at at_l
    rw [if_neg (by omega), if_neg (by omega), if_neg (by omega), if_neg (by omega)] at at_l
    split_ifs at at_l <;> cases at_l <;> rfl

/-- R250: the named registers whose value a busy read does not give. -/
theorem mem_of_locateRegister {a : Nat} {l : Location} (at_l : locateRegister a = some l)
    (free : l.unspecifiedWhileBusy = true) : a ∈ [0x0020, 0x0024, 0x0028, 0x002C] := by
  unfold locateRegister at at_l
  split at at_l
  case h_8 | h_9 | h_10 | h_11 => simp
  all_goals cases at_l <;> cases free

/-- R250: a location whose value a busy read does not give is at one of the offsets that the rule names. -/
theorem resultOffset_of_locate {cfg : Config} {a : Nat} {l : Location} (aligned : a % 4 = 0)
    (at_l : locate cfg a = some l) (free : l.unspecifiedWhileBusy = true) : ResultOffset cfg a := by
  refine ⟨aligned, ?_⟩
  simp only [locate] at at_l
  split at at_l
  case isTrue => exact .inl (mem_of_locateRegister at_l free)
  case isFalse =>
    split_ifs at at_l
    · exact .inr (.inl (by omega))
    all_goals exact .inr (.inr (by omega))

/-! ### Transactions -/

/-- R61, R63: a read that is not of a whole word of a location. -/
theorem hostRead_of_rejected {addr : BitVec 16} {be : BitVec 4} {s : State}
    (rejected : accessOk addr be = true → locate s.config addr.toNat = none) :
    hostStep (.read addr be) s = { s with answer := some (.read 0 .error) } := by
  simp only [hostStep, hostRead]
  split
  case isTrue whole => rw [rejected whole]; rfl
  case isFalse => rfl

/-- R61, R63, R64: a write that is not of a whole word of a location that the host may write. -/
theorem hostWrite_of_rejected {addr : BitVec 16} {be : BitVec 4} {v : Word} {s : State}
    (rejected : accessOk addr be = true → ∀ l, locate s.config addr.toNat = some l → l.readOnly = true) :
    hostStep (.write addr be v) s = { s with answer := some (.write .error) } := by
  simp only [hostStep, hostWrite]
  split
  case isTrue whole =>
    split
    case h_1 => rfl
    case h_2 l at_l => rw [if_pos (rejected whole l at_l)]; rfl
  case isFalse => rfl

/-- R63. -/
theorem hostStep_of_reserved {addr : BitVec 16} (v : Word) {s : State} (none_at : locate s.config addr.toNat = none) :
    hostStep (.read addr 0b1111) s = { s with answer := some (.read 0 .error) } ∧
    hostStep (.write addr 0b1111 v) s = { s with answer := some (.write .error) } :=
  ⟨hostRead_of_rejected fun _ => none_at,
    hostWrite_of_rejected fun _ _ at_l => absurd (none_at.symm.trans at_l) nofun⟩

/-- R250: a busy read of a result answers the next free word. -/
theorem hostRead_of_busy {addr : BitVec 16} {s : State} {l : Location} (aligned : addr.toNat % 4 = 0)
    (at_l : locate s.config addr.toNat = some l) (busy : s.busy = true) (free : l.unspecifiedWhileBusy = true) :
    hostStep (.read addr 0b1111) s =
      { s with answer := some (.read (Config.freeWord s.draws) .ok), draws := s.draws + 1 } := by
  simp only [hostStep, hostRead, accessOk_of_aligned aligned, if_true, at_l]
  rw [if_pos (by simp [busy, free])]

/-- R68: no location shows the answer that the model keeps (log 11). -/
theorem State.valueAt_withAnswer (s : State) (l : Location) (old : Option Answer) :
    State.valueAt { s with answer := old } l = s.valueAt l := by
  cases l <;> rfl

/-- R68, R250: what a read can do. Either it only answers, and the answer kept from before makes no difference to it, or
it draws a free word for a result location of the busy block. -/
theorem hostRead_cases (addr : BitVec 16) (be : BitVec 4) (s : State) :
    (∃ a, ∀ old, hostStep (.read addr be) { s with answer := old } = s.answered a) ∨
    (s.busy = true ∧ ResultOffset s.config addr.toNat ∧
      hostStep (.read addr be) s =
        { s with answer := some (.read (Config.freeWord s.draws) .ok), draws := s.draws + 1 }) := by
  cases whole : accessOk addr be with
  | false => exact .inl ⟨_, fun old => hostRead_of_rejected fun h => absurd (whole.symm.trans h) nofun⟩
  | true =>
    obtain ⟨rfl, aligned⟩ := accessOk_iff.1 whole
    cases at_l : locate s.config addr.toNat with
    | none => exact .inl ⟨_, fun old => hostRead_of_rejected fun _ => at_l⟩
    | some l =>
      by_cases specified : s.busy = false ∨ l.unspecifiedWhileBusy = false
      · refine .inl ⟨.read (s.valueAt l) .ok, fun old => ?_⟩
        rw [hostRead_of_locate (s := { s with answer := old }) aligned at_l specified, State.valueAt_withAnswer]
        rfl
      · simp only [not_or, Bool.not_eq_false] at specified
        obtain ⟨busy, free⟩ := specified
        exact .inr ⟨busy, resultOffset_of_locate aligned at_l free, hostRead_of_busy aligned at_l busy free⟩

/-! ### The statements -/

/-- Settles O44: nothing is located at a reserved offset. -/
theorem reservedOffsetIsRejected : Obligations.ReservedOffsetIsRejected := by
  intro addr v s aligned reserved
  apply hostStep_of_reserved
  obtain h | h | h | h | ⟨low, -, beyond⟩ := reserved
  · exact locate_of_register_gap aligned (.inl h)
  · exact locate_of_register_gap aligned (.inr h)
  · exact locate_of_outside_windows (.inl h)
  · exact locate_of_outside_windows (.inr h)
  · exact locate_of_nmax_le low beyond

/-- Settles O45: whatever is located at these offsets is read-only. -/
theorem readOnlyWriteIsRejected : Obligations.ReadOnlyWriteIsRejected :=
  fun _ _ _ _ h => hostWrite_of_rejected fun _ _ at_l => readOnly_of_locate h at_l

/-- Settles O50: `locate_poly` finds the word below NMAX, and nothing is located at the others. -/
theorem bufferWindowStoresAndReadsWords : Obligations.BufferWindowStoresAndReadsWords := by
  intro addr b i v s idle hi at_addr
  have free := State.busy_of_idle idle
  have aligned : addr.toNat % 4 = 0 := by omega
  have base : addr.toNat = bufBase b + 4 * i := by unfold bufBase; omega
  refine ⟨fun mapped => ⟨hostRead_of_locate aligned (locate_poly mapped at_addr) (.inl free), _,
    hostWrite_of_locate aligned (locate_poly mapped at_addr) rfl (.inl free), rfl, ?same, fun k outside => ?other⟩,
    fun beyond => hostStep_of_reserved v (locate_of_nmax_le (by omega) (by omega))⟩
  case same => exact s.mem.readWord_writeWords (bufBase b + 4 * i) [v] 0 Nat.one_pos
  case other => exact s.mem.readByte_writeWords_of_outside (bufBase b + 4 * i) [v] k (base ▸ outside)

/-- Settles O54, by `hostRead_cases`: only a read of a result of the busy block draws a free word. -/
theorem hostReadsHaveNoSideEffects : Obligations.HostReadsHaveNoSideEffects := by
  intro addr be s
  refine ⟨_, rfl, ?_⟩
  obtain ⟨a, same⟩ | ⟨busy, result, read⟩ := hostRead_cases addr be s
  · rw [show hostStep (.read addr be) s = s.answered a from same s.answer]
    exact ⟨rfl, fun _ => ⟨rfl, congrArg State.answer (same (some a))⟩⟩
  · rw [read]
    refine ⟨rfl, fun excluded => ?_⟩
    obtain idle | elsewhere := excluded
    · exact absurd idle (s.busy_iff.1 busy)
    · exact absurd result elsewhere

/-- Settles O43: neither a read nor a write accesses a part of a word. -/
theorem partialOrMisalignedAccessIsRejected : Obligations.PartialOrMisalignedAccessIsRejected := by
  intro addr be v s bad
  have notWhole : ¬ accessOk addr be = true := by
    rw [accessOk_iff, not_and_or]
    exact bad
  exact ⟨hostRead_of_rejected fun whole => absurd whole notWhole,
    hostWrite_of_rejected fun whole => absurd whole notWhole⟩

end Sys2Proof.Machine
end

section
/-! PROOFS. The decoder and the encoder (R91–R102): a command's word decodes to it, and what the decoder makes of every
word. -/

namespace Sys2Proof.Machine

/-! ### The word of a command -/

section
variable (opc : BitVec 8)

/-- R92. -/
theorem decodeControl_commandWord (i : Instr) : decodeControl i (commandWord opc 0#4 0#4 0#4) = .ok i := by
  simp [decodeControl]

theorem decodeReg3_commandWord (k : RegIx → RegIx → RegIx → Instr) (d a b : RegIx) :
    decodeReg3 k (commandWord opc (regField d) (regField a) (regField b)) = .ok (k d a b) := by
  simp [decodeReg3]

theorem decodeReg2_commandWord (k : RegIx → RegIx → Instr) (d a : RegIx) :
    decodeReg2 k (commandWord opc (regField d) (regField a) 0#4) = .ok (k d a) := by
  simp [decodeReg2]

/-- R99: different registers are different fields. -/
theorem decodeBfly_commandWord (w : RegIx) {a b : RegIx} (different : a ≠ b) :
    decodeBfly (commandWord opc (regField w) (regField a) (regField b)) = .ok (.bfly w a b) := by
  have fields : regField a ≠ regField b := fun e => different (Function.LeftInverse.injective regOf_regField e)
  simp [decodeBfly, fields]

theorem decodeBuf3_commandWord (k : BufIx → BufIx → BufIx → Instr) (d a b : BufIx) :
    decodeBuf3 k (commandWord opc (bufField d) (bufField a) (bufField b)) = .ok (k d a b) := by
  simp only [decodeBuf3, fieldA_commandWord, fieldB_commandWord, fieldC_commandWord, bufOf_bufField]
  rfl

theorem decodeBuf2_commandWord (k : BufIx → BufIx → Instr) (d a : BufIx) :
    decodeBuf2 k (commandWord opc (bufField d) (bufField a) 0#4) = .ok (k d a) := by
  simp only [decodeBuf2, fieldA_commandWord, fieldB_commandWord, fieldC_commandWord, bufOf_bufField]
  rfl

end

/-- Settles O2: the opcode leads to the decoder of the command's operands, which gives them back. -/
theorem decodeOfEncodeIsTheInstruction : Obligations.DecodeOfEncodeIsTheInstruction := by
  intro i wf
  cases i with
  | bfly w a b =>
    have different : a ≠ b := by simpa [Instr.wf] using wf
    simp [decode, encode, decodeOpcode, opcode, decodeBfly_commandWord, different]
  | nop | ctxset => simp [decode, encode, decodeOpcode, opcode, decodeControl_commandWord]
  | madd | msub | mmul | mpow => simp [decode, encode, decodeOpcode, opcode, decodeReg3_commandWord]
  | minv => simp [decode, encode, decodeOpcode, opcode, decodeReg2_commandWord]
  | bitrev | ntt | intt | pscale | twist | untwist => simp [decode, encode, decodeOpcode, opcode, decodeBuf2_commandWord]
  | pmul | nconv => simp [decode, encode, decodeOpcode, opcode, decodeBuf3_commandWord]

/-! ### Every word -/

/-- R91. -/
theorem fieldOpc_eq_of_toNat_eq {c : Word} {n : Nat} (h : (fieldOpc c).toNat = n) : fieldOpc c = BitVec.ofNat 8 n := by
  rw [← h, BitVec.ofNat_toNat, BitVec.setWidth_eq]

/-- R95–R99 in the fields of the word. -/
theorem illegalWord_iff (c : Word) : IllegalWord c ↔
    fieldRsvd c ≠ 0
    ∨ (0x07 ≤ (fieldOpc c).toNat ∧ (fieldOpc c).toNat ≤ 0x0F) ∨ 0x19 ≤ (fieldOpc c).toNat
    ∨ (((fieldOpc c).toNat = 0x00 ∨ (fieldOpc c).toNat = 0x10) ∧ (fieldA c ≠ 0 ∨ fieldB c ≠ 0 ∨ fieldC c ≠ 0))
    ∨ ((fieldOpc c).toNat ∈ [0x05, 0x11, 0x12, 0x13, 0x15, 0x16, 0x17] ∧ fieldC c ≠ 0)
    ∨ ((0x11 ≤ (fieldOpc c).toNat ∧ (fieldOpc c).toNat ≤ 0x18) ∧ (4 ≤ (fieldA c).toNat ∨ 4 ≤ (fieldB c).toNat))
    ∨ (((fieldOpc c).toNat = 0x14 ∨ (fieldOpc c).toNat = 0x18) ∧ 4 ≤ (fieldC c).toNat)
    ∨ ((fieldOpc c).toNat = 0x06 ∧ fieldB c = fieldC c) := by
  simp only [IllegalWord, ne_eq, BitVec.toNat_eq, fieldRsvd_toNat, fieldOpc_toNat, fieldA_toNat, fieldB_toNat,
    fieldC_toNat]
  rfl

/-- R95–R101: r treats c as the decoder must. It rejects c where c is illegal, and otherwise it is a well-formed command
whose word is c. -/
def DecodesTo (c : Word) (r : Except Reject Instr) : Prop :=
  (¬ IllegalWord c ∧ ∃ i, r = .ok i ∧ i.wf = true ∧ encode i = c) ∨ (IllegalWord c ∧ ∃ e, r = .error e)

theorem decodesTo_ok {c : Word} {i : Instr} (legal : ¬ IllegalWord c) (wf : i.wf = true) (word : encode i = c) :
    DecodesTo c (.ok i) :=
  .inl ⟨legal, i, rfl, wf, word⟩

theorem decodesTo_error {c : Word} (e : Reject) (illegal : IllegalWord c) : DecodesTo c (.error e) :=
  .inr ⟨illegal, e, rfl⟩

section
variable {c : Word} (fields : commandWord (fieldOpc c) (fieldA c) (fieldB c) (fieldC c) = c)
include fields

/-- R97: a control command. -/
theorem decodesTo_decodeControl {i : Instr} (wf : i.wf = true) (word : encode i = commandWord (fieldOpc c) 0 0 0)
    (illegal : IllegalWord c ↔ fieldA c ≠ 0 ∨ fieldB c ≠ 0 ∨ fieldC c ≠ 0) : DecodesTo c (decodeControl i c) := by
  unfold decodeControl
  split
  case isTrue unused =>
    obtain ⟨hA, hB, hC⟩ := unused
    rw [hA, hB, hC] at fields
    exact decodesTo_ok (by simp [illegal, hA, hB, hC]) wf (word.trans fields)
  case isFalse used => exact decodesTo_error _ (illegal.2 (by simpa only [not_and_or] using used))

/-- R92: three registers, where every operand is legal. -/
theorem decodesTo_decodeReg3 {k : RegIx → RegIx → RegIx → Instr} (wf : ∀ d a b, (k d a b).wf = true)
    (word : ∀ d a b, encode (k d a b) = commandWord (fieldOpc c) (regField d) (regField a) (regField b))
    (legal : ¬ IllegalWord c) : DecodesTo c (decodeReg3 k c) :=
  decodesTo_ok legal (wf _ _ _) (by simpa only [word, regField_regOf] using fields)

/-- R97: a scalar command with two registers. -/
theorem decodesTo_decodeReg2 {k : RegIx → RegIx → Instr} (wf : ∀ d a, (k d a).wf = true)
    (word : ∀ d a, encode (k d a) = commandWord (fieldOpc c) (regField d) (regField a) 0)
    (illegal : IllegalWord c ↔ fieldC c ≠ 0) : DecodesTo c (decodeReg2 k c) := by
  unfold decodeReg2
  split
  case isTrue unused =>
    rw [unused] at fields
    exact decodesTo_ok (fun h => illegal.1 h unused) (wf _ _) (by simpa only [word, regField_regOf] using fields)
  case isFalse used => exact decodesTo_error _ (illegal.2 used)

/-- R99: BFLY. -/
theorem decodesTo_decodeBfly (opc : fieldOpc c = 0x06) (illegal : IllegalWord c ↔ fieldB c = fieldC c) :
    DecodesTo c (decodeBfly c) := by
  unfold decodeBfly
  split
  case isTrue same => exact decodesTo_error _ (illegal.2 same)
  case isFalse different =>
    have wf : (Instr.bfly (regOf (fieldA c)) (regOf (fieldB c)) (regOf (fieldC c))).wf = true := by
      simpa [Instr.wf] using fun e => different (Function.LeftInverse.injective regField_regOf e)
    exact decodesTo_ok (fun h => different (illegal.1 h)) wf (by simpa [encode, opcode, opc] using fields)

/-- R98: a polynomial command with three buffers. -/
theorem decodesTo_decodeBuf3 {k : BufIx → BufIx → BufIx → Instr} (wf : ∀ d a b, (k d a b).wf = true)
    (word : ∀ d a b, encode (k d a b) = commandWord (fieldOpc c) (bufField d) (bufField a) (bufField b))
    (illegal : IllegalWord c ↔ 4 ≤ (fieldA c).toNat ∨ 4 ≤ (fieldB c).toNat ∨ 4 ≤ (fieldC c).toNat) :
    DecodesTo c (decodeBuf3 k c) := by
  unfold decodeBuf3
  obtain ⟨d, d_ok, hd, ltA⟩ | ⟨bad, geA⟩ := bufOf_cases (fieldA c)
  case inr => rw [bad]; exact decodesTo_error _ (illegal.2 (.inl geA))
  obtain ⟨a, a_ok, ha, ltB⟩ | ⟨bad, geB⟩ := bufOf_cases (fieldB c)
  case inr => rw [d_ok, bad]; exact decodesTo_error _ (illegal.2 (.inr (.inl geB)))
  obtain ⟨b, b_ok, hb, ltC⟩ | ⟨bad, geC⟩ := bufOf_cases (fieldC c)
  case inr => rw [d_ok, a_ok, bad]; exact decodesTo_error _ (illegal.2 (.inr (.inr geC)))
  rw [d_ok, a_ok, b_ok]
  exact decodesTo_ok (by rw [illegal]; omega) (wf d a b) (by rw [word, hd, ha, hb, fields])

/-- R97, R98: a polynomial command with two buffers. -/
theorem decodesTo_decodeBuf2 {k : BufIx → BufIx → Instr} (wf : ∀ d a, (k d a).wf = true)
    (word : ∀ d a, encode (k d a) = commandWord (fieldOpc c) (bufField d) (bufField a) 0)
    (illegal : IllegalWord c ↔ fieldC c ≠ 0 ∨ 4 ≤ (fieldA c).toNat ∨ 4 ≤ (fieldB c).toNat) :
    DecodesTo c (decodeBuf2 k c) := by
  unfold decodeBuf2
  split
  case isFalse used => exact decodesTo_error _ (illegal.2 (.inl used))
  case isTrue unused =>
    obtain ⟨d, d_ok, hd, ltA⟩ | ⟨bad, geA⟩ := bufOf_cases (fieldA c)
    case inr => rw [bad]; exact decodesTo_error _ (illegal.2 (.inr (.inl geA)))
    obtain ⟨a, a_ok, ha, ltB⟩ | ⟨bad, geB⟩ := bufOf_cases (fieldB c)
    case inr => rw [d_ok, bad]; exact decodesTo_error _ (illegal.2 (.inr (.inr geB)))
    rw [d_ok, a_ok]
    exact decodesTo_ok (by simp [illegal, unused]; omega) (wf d a) (by rw [word, hd, ha, ← unused, fields])

end

/-- R94, R95: one case for each way the operands of an opcode are laid out, and the reserved opcodes. -/
theorem decodesTo_decodeOpcode {c : Word} (rsvd : fieldRsvd c = 0) : DecodesTo c (decodeOpcode c) := by
  have fields := commandWord_fields c rsvd
  have illegal := illegalWord_iff c
  unfold decodeOpcode
  split
  case h_1 opc | h_8 opc =>
    exact decodesTo_decodeControl fields rfl (by rw [fieldOpc_eq_of_toNat_eq opc]; rfl) (by simp [illegal, rsvd, opc])
  case h_2 opc | h_3 opc | h_4 opc | h_5 opc =>
    exact decodesTo_decodeReg3 fields (fun _ _ _ => rfl) (fun _ _ _ => by rw [fieldOpc_eq_of_toNat_eq opc]; rfl)
      (by simp [illegal, rsvd, opc])
  case h_6 opc =>
    exact decodesTo_decodeReg2 fields (fun _ _ => rfl) (fun _ _ => by rw [fieldOpc_eq_of_toNat_eq opc]; rfl)
      (by simp [illegal, rsvd, opc])
  case h_7 opc => exact decodesTo_decodeBfly fields (fieldOpc_eq_of_toNat_eq opc) (by simp [illegal, rsvd, opc])
  case h_9 opc | h_10 opc | h_11 opc | h_13 opc | h_14 opc | h_15 opc =>
    exact decodesTo_decodeBuf2 fields (fun _ _ => rfl) (fun _ _ => by rw [fieldOpc_eq_of_toNat_eq opc]; rfl)
      (by simp [illegal, rsvd, opc])
  case h_12 opc | h_16 opc =>
    exact decodesTo_decodeBuf3 fields (fun _ _ _ => rfl) (fun _ _ _ => by rw [fieldOpc_eq_of_toNat_eq opc]; rfl)
      (by simp [illegal, rsvd, opc, or_assoc])
  case h_17 =>
    simp only [imp_false] at *
    have reserved : (0x07 ≤ (fieldOpc c).toNat ∧ (fieldOpc c).toNat ≤ 0x0F) ∨ 0x19 ≤ (fieldOpc c).toNat := by omega
    exact decodesTo_error _ (illegal.2 (by tauto))

/-- R101. -/
theorem decodesTo_decode (c : Word) : DecodesTo c (decode c) := by
  unfold decode
  split
  case isTrue rsvd => exact decodesTo_decodeOpcode rsvd
  case isFalse rsvd => exact decodesTo_error _ ((illegalWord_iff c).2 (.inl rsvd))

/-- Settles O3: a word that `decodesTo_decode` finds illegal has no command. -/
theorem encodeOfDecodeIsTheWord : Obligations.EncodeOfDecodeIsTheWord := by
  intro c i h
  obtain ⟨-, j, ok, wf, word⟩ | ⟨-, e, error⟩ := decodesTo_decode c
  · obtain rfl : j = i := Except.ok.inj (ok.symm.trans h)
    exact ⟨wf, word⟩
  · exact absurd (error.symm.trans h) nofun

/-- R100, R101: the words that decode are the words of the well-formed commands. -/
theorem decode_eq_ok_iff {c : Word} {i : Instr} : decode c = .ok i ↔ i.wf = true ∧ encode i = c :=
  ⟨encodeOfDecodeIsTheWord c i, fun ⟨wf, word⟩ => word ▸ decodeOfEncodeIsTheInstruction i wf⟩

/-- Settles O1: each word is the encoding of its command. -/
theorem decodesTheWordsOfTheSpec : Obligations.DecodesTheWordsOfTheSpec := by
  and_intros <;> exact decode_eq_ok_iff.2 ⟨rfl, rfl⟩

/-! ### Illegal words -/

/-- R95–R99. -/
theorem decode_ok_iff_not_illegalWord (c : Word) : (∃ i, decode c = .ok i) ↔ ¬ IllegalWord c := by
  obtain ⟨legal, i, ok, -, -⟩ | ⟨illegal, e, error⟩ := decodesTo_decode c
  · simp [legal, ok]
  · simp [illegal, error]

/-- Settles O4: CMD is at 0x0004 and takes any word of the host while the block is Idle (R120); the completion is
`completeStep_of_illegal`. -/
theorem illegalWordsCompleteWithIllegalCommand : Obligations.IllegalWordsCompleteWithIllegalCommand := by
  intro c
  refine ⟨decode_ok_iff_not_illegalWord c, fun illegal s idle => ?_⟩
  have noCommand : ∀ i, decode c ≠ .ok i := fun i h => (decode_ok_iff_not_illegalWord c).1 ⟨i, h⟩ illegal
  rw [hostWrite_of_locate (l := .cmd) rfl rfl rfl (.inl (State.busy_of_idle idle))]
  exact completeStep_of_illegal (s := (s.issue c).answered (.write .ok)) rfl noCommand

end Sys2Proof.Machine
end

section
/-! PROOFS. The common life of a command (R120–R125): every step answers, and what a completion writes, failed or
not. -/

namespace Sys2Proof.Machine

/-! ### Nothing stops the block -/

theorem exec_answers (i : Instr) (s : State) : ∃ t, exec i s = .next t := by
  obtain ⟨_, _, e⟩ | ⟨_, _, e⟩ := exec_cases i s <;> exact ⟨_, e⟩

theorem completeStep_answers (s : State) : ∃ t, completeStep s = .next t := by
  cases engine : s.engine with
  | idle => exact ⟨s, completeStep_of_idle engine⟩
  | busy c =>
    by_cases legal : ∃ i, decode c = .ok i
    · obtain ⟨i, ok⟩ := legal
      exact completeStep_of_decode_ok engine ok ▸ exec_answers i s
    · exact ⟨_, completeStep_of_illegal engine (not_exists.1 legal)⟩

theorem handle_answers (e : Event) (s : State) : ∃ t, handle e s = .next t := by
  cases running : s.rstN with
  | true =>
    cases e with
    | host t => exact ⟨_, handle_host_of_running t running⟩
    | complete => exact handle_complete_of_running running ▸ completeStep_answers s
    | resetEdge | resetRelease => exact ⟨_, rfl⟩
  | false =>
    cases e with
    | host t => exact ⟨_, handle_host_of_inReset t running⟩
    | complete => exact ⟨_, handle_complete_of_inactive (.inl running)⟩
    | resetEdge | resetRelease => exact ⟨_, rfl⟩

/-- Settles O7: a step is one event, and the engine's completion is a decoded command or an Illegal word. -/
theorem everyStepAnswersANextState : Obligations.EveryStepAnswersANextState := by
  refine ⟨fun s => ?_, exec_answers⟩
  cases schedule : s.schedule with
  | nil => exact step_of_schedule_nil schedule ▸ handle_answers _ _
  | cons e rest => exact step_of_schedule_cons schedule ▸ handle_answers _ _

/-! ### What a completion writes -/

/-- Settles O11: a success reports 0, so the completion is that of an error, which writes only STATUS. -/
theorem failedCommandWritesOnlyStatus : Obligations.FailedCommandWritesOnlyStatus := by
  intro i s t h failed
  obtain ⟨code, notOk, e⟩ | ⟨u, _, e⟩ := exec_cases i s <;> cases h.symm.trans e
  case inl => exact s.finish_error notOk
  case inr => exact absurd rfl failed

/-- R182 writes CTXVALID; no result of a command touches another field of STATUS. -/
theorem Effect.status_eq {i : Instr} {s t : State} (effect : Effect i s t) :
    t.status = { s.status with ctxValid := t.status.ctxValid } := by cases effect <;> rfl

/-- Every completion is the common one, over results that leave ERR and OVR alone. -/
theorem exec_eq_finish (i : Instr) (s : State) :
    ∃ (u : State) (code : Code), exec i s = .next (u.finish code) ∧ u.status.err = s.status.err ∧
      u.status.ovr = s.status.ovr := by
  obtain ⟨code, _, e⟩ | ⟨u, effect, e⟩ := exec_cases i s
  · exact ⟨s, code, e, rfl, rfl⟩
  · exact ⟨u, .ok, e, by rw [effect.status_eq], by rw [effect.status_eq]⟩

/-- R29, R125: LASTCODE is not 0 exactly where the command raised an error. -/
theorem Code.bits_bne_zero (code : Code) : (code.bits != 0) = (code != .ok) := by cases code <;> rfl

theorem Status.completed_err_eq_lastCode (code : Code) (st : Status) :
    (st.completed code).err = (st.err || (st.completed code).lastCode != 0) :=
  congrArg (st.err || ·) code.bits_bne_zero.symm

/-- Settles O12: what `finish` writes; BUSY is bit 0 of STATUS and follows the engine. -/
theorem everyCompletionSetsDoneAndIdles : Obligations.EveryCompletionSetsDoneAndIdles := by
  intro i s
  obtain ⟨u, code, e, err, ovr⟩ := exec_eq_finish i s
  obtain ⟨busy, _⟩ := Status.toWord_flags (u.finish code).busy (u.finish code).status
  exact ⟨_, e, rfl, rfl, ovr, err ▸ u.status.completed_err_eq_lastCode code, busy⟩

/-- Settles O15: NOP has no check and no result. -/
theorem nopOnlyCompletes : Obligations.NopOnlyCompletes := fun s => congrArg Host.Outcome.next s.finish_ok

end Sys2Proof.Machine
end

section
/-! PROOFS. The check phase of the scalar and the polynomial commands (R126, R129–R131). -/

namespace Sys2Proof.Machine

/-- R123: a command whose checks raise an error. -/
theorem complete_error_eq_afterError (s : State) {code : Code} (h : code ≠ .ok) :
    complete s (.error code) = .next (s.afterError code.bits) := by
  rw [complete_error, s.finish_error h]

/-! ### Guarded results -/

/-- A check phase that goes on to `r` on good inputs, and raises `code` on all others. -/
structure Guards (good : Prop) (code : Code) (checked r : Except Code State) : Prop where
  accepts : good → checked = r
  rejects : ¬ good → checked = .error code

section
variable {α : Type} {good : Prop} {code : Code} {r : Except Code State}

theorem guards_nil (p : α → Prop) : Guards (∀ x ∈ [], p x) code r r := ⟨fun _ => rfl, fun bad => absurd nofun bad⟩

/-- A check in front of a guarded result guards it by its own condition too (R126). -/
theorem Guards.bind {β : Type} {passes fails : Prop} {check : Except Code β} {v : β} {f : β → Except Code State}
    (h : Guards good code (f v) r) (outcome : (passes ∧ check = .ok v) ∨ (fails ∧ check = .error code))
    (fails_iff : fails ↔ ¬ passes) : Guards (passes ∧ good) code (check >>= f) r := by
  obtain ⟨pass, e⟩ | ⟨fail, e⟩ := outcome <;> rw [e]
  · exact ⟨fun both => h.accepts both.2, fun bad => h.rejects fun rest => bad ⟨pass, rest⟩⟩
  · exact ⟨fun both => absurd both.1 (fails_iff.1 fail), fun _ => rfl⟩

variable {s : State}

theorem Guards.modulus_bind {f : Nat → Except Code State} (h : Guards good .invalidInput (f s.q.toNat) r) :
    Guards (s.ScalarReady ∧ good) .invalidInput (modulus s >>= f) r :=
  h.bind (modulus_cases s) (by unfold State.ScalarReady; omega)

theorem Guards.element_bind {q : Nat} {a : RegIx} {rs : List RegIx} {f : Nat → Except Code State}
    (h : Guards (∀ x ∈ rs, (s.readX x).toNat < q) .invalidInput (f (s.readX a).toNat) r) :
    Guards (∀ x ∈ a :: rs, (s.readX x).toNat < q) .invalidInput (element s q a >>= f) r := by
  rw [List.forall_mem_cons]
  exact h.bind (element_cases s q a) Nat.not_lt.symm

theorem Guards.elements_bind {b : BufIx} {bs : List BufIx} {f : List Nat → Except Code State}
    (h : Guards (∀ x ∈ bs, s.PolyReady x) .invalidInput (f (s.source b)) r) :
    Guards (∀ x ∈ b :: bs, s.PolyReady x) .invalidInput (elements s b >>= f) r := by
  rw [List.forall_mem_cons]
  exact h.bind (elements_cases s b) Iff.rfl

end

/-! ### Scalar commands -/

/-- R129: the inputs that pass the checks of a scalar command. -/
def ScalarInputsOk (i : Instr) (s : State) : Prop :=
  s.ScalarReady ∧ ∀ r ∈ i.fieldElements, (s.readX r).toNat < s.q.toNat

/-- R129, R145: a scalar command checks its inputs and succeeds, but for MINV of 0. -/
theorem exec_scalar {i : Instr} (s : State) (scalar : i.isScalar = true) (wf : i.wf = true) :
    ∃ checked r, exec i s = complete s checked ∧ Guards (ScalarInputsOk i s) .invalidInput checked r ∧
      ((∃ t, r = .ok t) ∨ ∃ d a, i = .minv d a ∧ (s.readX a).toNat = 0 ∧ r = .error .notInvertible) := by
  cases i with
  | madd | msub | mmul => exact ⟨_, _, rfl, (guards_nil _).element_bind.element_bind.modulus_bind, .inl ⟨_, rfl⟩⟩
  | mpow => exact ⟨_, _, rfl, (guards_nil _).element_bind.modulus_bind, .inl ⟨_, rfl⟩⟩
  | minv d a =>
    refine ⟨_, _, rfl, (guards_nil _).element_bind.modulus_bind, ?_⟩
    by_cases zero : (s.readX a).toNat = 0
    · exact .inr ⟨d, a, rfl, zero, if_pos zero⟩
    · exact .inl ⟨_, if_neg zero⟩
  | bfly w a b =>
    have different : a ≠ b := bne_iff_ne.1 wf
    exact ⟨_, _, congrArg (complete s) (if_neg different),
      (guards_nil _).element_bind.element_bind.element_bind.modulus_bind, .inl ⟨_, rfl⟩⟩
  | nop | ctxset | bitrev | ntt | intt | pmul | pscale | twist | untwist | nconv => cases scalar

/-- Settles O22: the guard of `exec_scalar`, failed and passed. -/
theorem scalarCommandsCheckModulusAndOperands : Obligations.ScalarCommandsCheckModulusAndOperands := by
  intro i s scalar wf
  obtain ⟨checked, r, e, guards, result⟩ := exec_scalar s scalar wf
  refine ⟨fun bad => ?bad, fun good => ?good⟩
  case bad =>
    have rejected : ¬ ScalarInputsOk i s := by
      rintro ⟨⟨large, odd⟩, below⟩
      obtain small | even | ⟨r, read, notBelow⟩ := bad
      · omega
      · omega
      · exact absurd (below r read) (Nat.not_lt.2 notBelow)
    rw [e, guards.rejects rejected]
    exact complete_error_eq_afterError s (code := .invalidInput) (by decide)
  case good =>
    rw [e, guards.accepts good]
    obtain ⟨t, rfl⟩ | ⟨d, a, minv, zero, rfl⟩ := result
    · exact ⟨_, rfl, .inl rfl⟩
    · exact ⟨_, rfl, .inr ⟨d, a, minv, zero, rfl⟩⟩

/-! ### Polynomial commands -/

/-- R130, R131: a polynomial command checks the context and then its sources, and succeeds. -/
theorem exec_polynomial {i : Instr} {d : BufIx} (s : State) (dest : polyDest i = some d) :
    ∃ f t, exec i s = complete s (context s >>= f) ∧
      Guards (∀ b ∈ i.checkedSources, s.PolyReady b) .invalidInput (f ()) (.ok t) := by
  cases i with
  | bitrev => exact ⟨_, _, rfl, guards_nil _⟩
  | ntt | intt | pscale | twist | untwist => exact ⟨_, _, rfl, (guards_nil _).elements_bind⟩
  | pmul | nconv => exact ⟨_, _, rfl, (guards_nil _).elements_bind.elements_bind⟩
  | nop | madd | msub | mmul | mpow | minv | bfly | ctxset => cases dest

/-- Settles O36: the context is the first check. -/
theorem polynomialCommandsNeedAContext : Obligations.PolynomialCommandsNeedAContext := by
  intro i d s dest none
  obtain ⟨f, _, e, _⟩ := exec_polynomial s dest
  rw [e, context_of_none none, bind_error]
  exact complete_error_eq_afterError s (code := .noContext) (by decide)

theorem polyDest_of_mem_checkedSources {i : Instr} {b : BufIx} (h : b ∈ i.checkedSources) :
    ∃ d, polyDest i = some d := by
  cases i with
  | ntt | intt | pmul | pscale | twist | untwist | nconv => exact ⟨_, rfl⟩
  | nop | madd | msub | mmul | mpow | minv | bfly | ctxset | bitrev => cases h

/-- Settles O37: with a context, the guard of `exec_polynomial` decides; BITREV's is empty. -/
theorem polynomialCommandsCheckTheirSources : Obligations.PolynomialCommandsCheckTheirSources := by
  intro i s valid
  refine ⟨fun b source ⟨k, below, bad⟩ => ?bad, ?bitrev⟩
  case bad =>
    obtain ⟨d, dest⟩ := polyDest_of_mem_checkedSources source
    obtain ⟨f, _, e, guards⟩ := exec_polynomial s dest
    have rejected : ¬ ∀ b ∈ i.checkedSources, s.PolyReady b := fun ready =>
      absurd (ready b source k below) (Nat.not_lt.2 bad)
    rw [e, context_of_valid valid, bind_ok, guards.rejects rejected]
    exact complete_error_eq_afterError s (code := .invalidInput) (by decide)
  case bitrev =>
    rintro d a rfl
    obtain ⟨f, t, e, guards⟩ := exec_polynomial s (i := .bitrev d a) rfl
    rw [e, context_of_valid valid, bind_ok, guards.accepts nofun]
    exact ⟨_, rfl, rfl⟩

end Sys2Proof.Machine
end

section
/-! PROOFS. The busy period (R71, R120, R121, R133, R251): a write to CMD, and why no transaction changes a command's
result. -/

namespace Sys2Proof.Machine

/-! ### CMD -/

/-- Settles O8: CMD is at 0x0004, and a write that the idle block stores there is `issue`. -/
theorem writeToIdleCmdIssues : Obligations.WriteToIdleCmdIssues :=
  fun _ _ idle => hostWrite_of_locate (l := .cmd) rfl rfl rfl (.inl (State.busy_of_idle idle))

/-- Settles O9: CMD is at 0x0004, and does not accept writes during a busy period. -/
theorem writeToBusyCmdIsIgnored : Obligations.WriteToBusyCmdIsIgnored :=
  fun s _ _ engine => hostWrite_of_busy (l := .cmd) rfl rfl rfl (by simp [State.busy, engine]) rfl

/-! ### What the host can change during a busy period -/

/-- s with the fields that a transaction of the busy period can change as v has them: STATUS.DONE, ERR and OVR, IRQ_EN,
and the model's own answer and draws. -/
def State.withHostFields (s v : State) : State :=
  { s with
    status := { s.status with done := v.status.done, err := v.status.err, ovr := v.status.ovr }
    irqEn := v.irqEn
    answer := v.answer
    draws := v.draws }

/-- R251: only STATUS and IRQ_EN accept writes. -/
theorem hostStep_eq_withHostFields {s : State} {c : Word} (engine : s.engine = .busy c) (tr : Transaction) :
    hostStep tr s = s.withHostFields (hostStep tr s) := by
  obtain ⟨_, _, e⟩ | e | ⟨_, l, v, _, _, accepted, e⟩ := hostStep_cases tr s <;> rw [e]
  case inl | inr.inl => rfl
  case inr.inr =>
    have accepts : l.acceptedWhileBusy = true := accepted.resolve_left (by simp [State.busy, engine])
    cases l with
    | status | irqEn => rfl
    | info | cmd | q | n | omega | omegaInv | omegaN | omegaNInv | nInv | x | poly | tw | twi => cases accepts

theorem foldl_hostStep_eq_withHostFields {c : Word} (ts : List Transaction) {s : State} (engine : s.engine = .busy c) :
    ts.foldl (fun s' tr => hostStep tr s') s = s.withHostFields (ts.foldl (fun s' tr => hostStep tr s') s) := by
  induction ts generalizing s with
  | nil => rfl
  | cons tr ts ih =>
    have first := hostStep_eq_withHostFields engine tr
    have rest := ih (s := hostStep tr s) (by rw [first]; exact engine)
    rw [List.foldl_cons]
    calc
      _ = (hostStep tr s).withHostFields _ := rest
      _ = (s.withHostFields (hostStep tr s)).withHostFields _ := by rw [← first]
      _ = s.withHostFields _ := rfl

/-! ### What a completion reads -/

/-- No command reads the host's fields: its checks answer the same, and its results carry the fields along. -/
theorem exec_withHostFields (i : Instr) (s v : State) :
    ∃ r, exec i s = complete s r ∧
      exec i (s.withHostFields v) = complete (s.withHostFields v) ((·.withHostFields v) <$> r) := by
  cases i with
  | nop => exact ⟨.ok s, rfl, rfl⟩
  | minv | bfly => exact ⟨_, rfl, congrArg (complete _) (by simp only [map_bind, apply_ite (Functor.map _)]; rfl)⟩
  | madd | msub | mmul | mpow | ctxset | bitrev | ntt | intt | pmul | pscale | twist | untwist | nconv =>
    exact ⟨_, rfl, congrArg (complete _) (by simp only [map_bind]; rfl)⟩

theorem completeStep_withHostFields {s : State} {c : Word} (engine : s.engine = .busy c) (v : State) :
    ∃ r, completeStep s = complete s r ∧
      completeStep (s.withHostFields v) = complete (s.withHostFields v) ((·.withHostFields v) <$> r) := by
  have engine' : (s.withHostFields v).engine = .busy c := engine
  cases word : decode c with
  | ok i =>
    rw [completeStep_of_decode_ok engine word, completeStep_of_decode_ok engine' word]
    exact exec_withHostFields i s v
  | error e =>
    exact ⟨.error .illegalCommand, by simp [completeStep, engine, word], by simp [completeStep, engine', word]⟩

/-- R123–R125: so a completion is the same common one, over the same results with the host's fields carried along. -/
theorem completeStep_eq_finish_withHostFields {s : State} {c : Word} (engine : s.engine = .busy c) (v : State) :
    ∃ (t : State) (code : Code), completeStep s = .next (t.finish code) ∧
      completeStep (s.withHostFields v) = .next ((t.withHostFields v).finish code) := by
  obtain ⟨r, atOnce, after⟩ := completeStep_withHostFields engine v
  cases r with
  | ok t => exact ⟨t, .ok, atOnce, after⟩
  | error code => exact ⟨s, code, atOnce, after⟩

/-- Settles O59: the transactions leave a state that differs from s in the host's fields only, and of these the common
completion sets DONE and makes ERR sticky. -/
theorem completionIsIndependentOfBusyTransactions : Obligations.CompletionIsIndependentOfBusyTransactions := by
  intro s c ts engine
  have left := foldl_hostStep_eq_withHostFields ts engine
  generalize ts.foldl (fun s' tr => hostStep tr s') s = v at left ⊢
  obtain ⟨t, code, atOnce, after⟩ := completeStep_eq_finish_withHostFields engine v
  rw [← left] at after
  exact ⟨_, _, atOnce, after, rfl, (t.withHostFields v).status.completed_err_eq_lastCode code, rfl⟩

end Sys2Proof.Machine
end

section
/-! PROOFS. The modular arithmetic commands (R140–R146): where the inputs pass the checks, the result is the formula of the
command in its register, and nothing else is written. -/

namespace Sys2Proof.Machine

/-! ### A success that writes one register -/

/-- R124, R125: t is s after a success that wrote the number v to register d, and nothing else. -/
def WritesOnlyRegister (s t : State) (d : RegIx) (v : Nat) : Prop :=
  t = { s.afterOk with x := t.x } ∧ (t.readX d).toNat = v ∧ ∀ r, r ≠ d → t.readX r = s.readX r

/-- R140: a result below q is a word, so the register holds it exactly. -/
theorem writesOnlyRegister_of_exec {i : Instr} {s : State} {d : RegIx} {v : Nat} (below : v < s.q.toNat)
    (e : exec i s = complete s (.ok (s.writeX d v))) : ∃ t, exec i s = .next t ∧ WritesOnlyRegister s t d v := by
  have word : v < 2 ^ 32 := below.trans s.q.isLt
  have written : ((s.writeX d v).readX d).toNat = v := by
    rw [s.readX_writeX_self, BitVec.toNat_ofNat, Nat.mod_eq_of_lt word]
  refine ⟨(s.writeX d v).finish .ok, e, ?frame, written, fun r different => s.readX_writeX_of_ne v different⟩
  case frame =>
    rw [State.finish_ok]
    rfl

/-! ### The commands on inputs that pass their checks -/

section
variable {d a b e : RegIx} {s : State}

theorem State.ScalarReady.q_pos (ready : s.ScalarReady) : 0 < s.q.toNat := Nat.zero_lt_of_lt ready.1

theorem forall_mem_pair_lt {q : Nat} (ha : (s.readX a).toNat < q) (hb : (s.readX b).toNat < q) :
    ∀ r ∈ [a, b], (s.readX r).toNat < q :=
  List.forall_mem_cons.2 ⟨ha, List.forall_mem_singleton.2 hb⟩

/-- R141. -/
theorem exec_madd (ok : ScalarInputsOk (.madd d a b) s) :
    exec (.madd d a b) s = complete s (.ok (s.writeX d (addMod (s.readX a).toNat (s.readX b).toNat s.q.toNat))) :=
  congrArg (complete s) ((guards_nil _).element_bind.element_bind.modulus_bind.accepts ok)

/-- R142. -/
theorem exec_msub (ok : ScalarInputsOk (.msub d a b) s) :
    exec (.msub d a b) s = complete s (.ok (s.writeX d (subMod (s.readX a).toNat (s.readX b).toNat s.q.toNat))) :=
  congrArg (complete s) ((guards_nil _).element_bind.element_bind.modulus_bind.accepts ok)

/-- R143. -/
theorem exec_mmul (ok : ScalarInputsOk (.mmul d a b) s) :
    exec (.mmul d a b) s = complete s (.ok (s.writeX d (mulMod (s.readX a).toNat (s.readX b).toNat s.q.toNat))) :=
  congrArg (complete s) ((guards_nil _).element_bind.element_bind.modulus_bind.accepts ok)

/-- R144: the exponent is not a field element, and no check reads it. -/
theorem exec_mpow (ok : ScalarInputsOk (.mpow d a e) s) :
    exec (.mpow d a e) s = complete s (.ok (s.writeX d ((s.readX a).toNat ^ (s.readX e).toNat % s.q.toNat))) := by
  rw [← powMod_eq]
  exact congrArg (complete s) ((guards_nil _).element_bind.modulus_bind.accepts ok)

/-- R145. -/
theorem exec_minv (ok : ScalarInputsOk (.minv d a) s) :
    exec (.minv d a) s = complete s (if (s.readX a).toNat = 0 then .error .notInvertible
      else .ok (s.writeX d ((s.readX a).toNat ^ (s.q.toNat - 2) % s.q.toNat))) := by
  rw [← powMod_eq]
  exact congrArg (complete s) ((guards_nil _).element_bind.modulus_bind.accepts ok)

/-- R145: an operand other than 0. -/
theorem minv_writesOnlyRegister (d : RegIx) (ready : s.ScalarReady) (positive : 0 < (s.readX a).toNat)
    (ha : (s.readX a).toNat < s.q.toNat) :
    ∃ t, exec (.minv d a) s = .next t ∧
      WritesOnlyRegister s t d ((s.readX a).toNat ^ (s.q.toNat - 2) % s.q.toNat) := by
  have result := exec_minv (d := d) ⟨ready, List.forall_mem_singleton.2 ha⟩
  rw [if_neg positive.ne'] at result
  exact writesOnlyRegister_of_exec (Nat.mod_lt _ ready.q_pos) result

end

/-! ### Addition, subtraction, multiplication -/

/-- Settles O16: `addMod` is the formula. -/
theorem maddAddsModQ : Obligations.MaddAddsModQ := fun _ _ _ _ ready ha hb =>
  writesOnlyRegister_of_exec (addMod_lt ready.q_pos) (exec_madd ⟨ready, forall_mem_pair_lt ha hb⟩)

/-- Settles O17: `subMod` stays in the naturals, and `subMod_eq` says that it is the remainder of the difference. -/
theorem msubSubtractsModQ : Obligations.MsubSubtractsModQ := by
  intro d a b s ready ha hb
  obtain ⟨t, e, frame, written, others⟩ :=
    writesOnlyRegister_of_exec (subMod_lt ha hb) (exec_msub (d := d) ⟨ready, forall_mem_pair_lt ha hb⟩)
  exact ⟨t, e, frame, written ▸ subMod_eq ha hb, others⟩

/-- Settles O18: `mulMod` is the formula. -/
theorem mmulMultipliesModQ : Obligations.MmulMultipliesModQ := fun _ _ _ _ ready ha hb =>
  writesOnlyRegister_of_exec (mulMod_lt ready.q_pos) (exec_mmul ⟨ready, forall_mem_pair_lt ha hb⟩)

/-! ### Exponentiation and inversion -/

/-- Settles O19: repeated squaring computes the power (`powMod_eq`), for any exponent. -/
theorem mpowRaisesModQ : Obligations.MpowRaisesModQ := fun _ _ _ _ ready ha =>
  writesOnlyRegister_of_exec (Nat.mod_lt _ ready.q_pos) (exec_mpow ⟨ready, List.forall_mem_singleton.2 ha⟩)

/-- Settles O20: 0 is a field element, so it passes the range check and raises NotInvertible after it. -/
theorem minvRaisesToQMinusTwo : Obligations.MinvRaisesToQMinusTwo := by
  refine fun d a s ready => ⟨minv_writesOnlyRegister d ready, fun zero => ?_⟩
  have below : (s.readX a).toNat < s.q.toNat := zero ▸ ready.q_pos
  rw [exec_minv ⟨ready, List.forall_mem_singleton.2 below⟩, if_pos zero]
  exact complete_error_eq_afterError s (code := .notInvertible) (by decide)

/-- Fermat's little theorem: modulo a prime, a^(p−2) is an inverse of a. -/
theorem mul_pow_sub_two_mod {p a : Nat} (prime : p.Prime) (coprime : a.Coprime p) : a * (a ^ (p - 2) % p) % p = 1 := by
  have two_le : 2 ≤ p := prime.two_le
  have exponent : p - 2 + 1 = p.totient := by
    rw [Nat.totient_prime prime]
    omega
  calc
    a * (a ^ (p - 2) % p) % p = a ^ (p - 2 + 1) % p := by rw [Nat.mul_mod_mod, pow_succ']
    _ = 1 % p := exponent ▸ Nat.ModEq.pow_totient coprime
    _ = 1 := Nat.mod_eq_of_lt two_le

/-- Settles O23: Fermat's theorem gives the inverse; a is coprime to q and cancels, so any other one is equal to it. -/
theorem minvOfPrimeModulusIsTheInverse : Obligations.MinvOfPrimeModulusIsTheInverse := by
  intro d a s ready prime positive ha
  have coprime : s.q.toNat.Coprime (s.readX a).toNat := Nat.coprime_of_lt_prime positive.ne' ha prime
  obtain ⟨t, e, -, written, -⟩ := minv_writesOnlyRegister d ready positive ha
  have below : (t.readX d).toNat < s.q.toNat := written ▸ Nat.mod_lt _ ready.q_pos
  have inverse : (s.readX a).toNat * (t.readX d).toNat % s.q.toNat = 1 :=
    written ▸ mul_pow_sub_two_mod prime coprime.symm
  refine ⟨t, e, below, inverse, fun r hr inverse' => ?unique⟩
  case unique =>
    have same : r ≡ (t.readX d).toNat [MOD s.q.toNat] :=
      Nat.ModEq.cancel_left_of_coprime coprime (inverse'.trans inverse.symm)
    exact same.eq_of_lt_of_lt hr below

end Sys2Proof.Machine
end

section
/-! PROOFS. The butterfly (R160) and its command (R161). -/

namespace Sys2Proof.Machine

/-! ### The butterfly -/

/-- R160: the product is reduced before it is added, which the sum modulo q does not show. -/
theorem butterfly_fst (a b w q : Nat) : (butterfly a b w q).1 = (a + w * b) % q := Nat.add_mod_mod a (w * b) q

/-- R160: nor does the difference. -/
theorem butterfly_snd {a q : Nat} (ha : a < q) (b w : Nat) :
    ((butterfly a b w q).2 : Int) = ((a : Int) - w * b) % q := by
  have below : mulMod w b q < q := mulMod_lt (Nat.zero_lt_of_lt ha)
  calc
    ((butterfly a b w q).2 : Int) = ((a : Int) - (w * b % q : Nat)) % q := subMod_eq ha below
    _ = ((a : Int) - w * b) % q := by rw [Int.natCast_emod, Nat.cast_mul, Int.sub_emod_emod]

theorem butterfly_lt {a q : Nat} (ha : a < q) (b w : Nat) : (butterfly a b w q).1 < q ∧ (butterfly a b w q).2 < q :=
  have positive : 0 < q := Nat.zero_lt_of_lt ha
  ⟨addMod_lt positive, subMod_lt ha (mulMod_lt positive)⟩

/-- R161. -/
theorem exec_bfly {w a b : RegIx} {s : State} (different : a ≠ b) (ok : ScalarInputsOk (.bfly w a b) s) :
    let r := butterfly (s.readX a).toNat (s.readX b).toNat (s.readX w).toNat s.q.toNat
    exec (.bfly w a b) s = complete s (.ok ((s.writeX a r.1).writeX b r.2)) :=
  congrArg (complete s) ((if_neg different).trans
    ((guards_nil _).element_bind.element_bind.element_bind.modulus_bind.accepts ok))

/-- R140: a number below Q is a word, so a register holds it exactly. -/
theorem State.toNat_readX_writeX {s : State} {v : Nat} {q : Word} (below : v < q.toNat) (r : RegIx) :
    ((s.writeX r v).readX r).toNat = v := by
  rw [s.readX_writeX_self, BitVec.toNat_ofNat, Nat.mod_eq_of_lt (below.trans q.isLt)]

/-- Settles O21: the checks read all three registers, so both results are of the old values; FB ≠ FC keeps the first
result when the second is written. -/
theorem bflyIsTheButterfly : Obligations.BflyIsTheButterfly := by
  intro w a b s different ready hw ha hb
  have ok : ScalarInputsOk (.bfly w a b) s := ⟨ready, List.forall_mem_cons.2 ⟨hw, forall_mem_pair_lt ha hb⟩⟩
  obtain ⟨fstLt, sndLt⟩ := butterfly_lt ha (s.readX b).toNat (s.readX w).toNat
  have kept (r : RegIx) (hr : r ≠ b) (u : State) (v : Nat) : ((u.writeX b v).finish .ok).readX r = u.readX r :=
    u.readX_writeX_of_ne v hr
  refine ⟨_, exec_bfly different ok, ?frame, ?fst, ?snd, fun r ra rb => ?others⟩
  case frame =>
    rw [State.finish_ok]
    rfl
  case fst =>
    rw [kept a different, State.toNat_readX_writeX fstLt, butterfly_fst]
  case snd =>
    exact (congrArg Nat.cast (State.toNat_readX_writeX sndLt b)).trans (butterfly_snd ha _ _)
  case others =>
    rw [kept r rb]
    exact s.readX_writeX_of_ne _ ra

end Sys2Proof.Machine
end

section
/-! PROOFS. The commands that write one buffer (R128, R162, R164, R165): where the checks pass, the destination holds the
command's words and nothing else is written; and a command that is issued and waited for. -/

namespace Sys2Proof.Machine

/-! ### A success that writes one buffer -/

/-- R128. -/
theorem writesOnlyBuffer_finish_writeBuf (s : State) (d : BufIx) {vs : List Nat} (length : vs.length = s.degree) :
    WritesOnlyBuffer s ((s.writeBuf d vs).finish .ok) d := by
  refine ⟨?frame, fun k outside => s.mem.readByte_writeWords_of_outside (bufBase d) (toWords vs) k ?_⟩
  case frame =>
    rw [State.finish_ok]
    rfl
  rwa [length_toWords, length]

theorem State.toNat_poly_writeBuf {s : State} {d : BufIx} {vs : List Nat} {k : Nat} (hk : k < vs.length)
    (word : vs.getD k 0 < 2 ^ 32) : ((s.writeBuf d vs).poly d k).toNat = vs.getD k 0 := by
  rw [List.getD_eq_getElem _ _ hk] at word ⊢
  rw [s.poly_writeBuf d vs k hk, BitVec.toNat_ofNat, Nat.mod_eq_of_lt word]

/-- Word k of the destination is v k where the command's list of results is v 0, v 1, … -/
theorem writesOnlyBuffer_of_exec {i : Instr} {s : State} {d : BufIx} {vs : List Nat} {v : Nat → Nat}
    (e : exec i s = complete s (.ok (s.writeBuf d vs))) (length : vs.length = s.degree)
    (values : ∀ k < s.n.toNat, vs.getD k 0 = v k ∧ v k < 2 ^ 32) :
    ∃ t, exec i s = .next t ∧ WritesOnlyBuffer s t d ∧ ∀ k < s.n.toNat, (t.poly d k).toNat = v k := by
  refine ⟨_, e, writesOnlyBuffer_finish_writeBuf s d length, fun k hk => ?_⟩
  obtain ⟨value, word⟩ := values k hk
  exact (State.toNat_poly_writeBuf (hk.trans_eq length.symm) (value ▸ word)).trans value

/-! ### The commands on inputs that pass their checks -/

section
variable {d a : BufIx} {s : State} (valid : s.status.ctxValid = true)
include valid

/-- R162. -/
theorem exec_bitrev : exec (.bitrev d a) s = complete s (.ok (s.writeBuf d (bitReverse (s.source a)))) :=
  congrArg (complete s) (by rw [context_of_valid valid]; rfl)

variable (ready : s.PolyReady a)
include ready

/-- R164. -/
theorem exec_ntt :
    exec (.ntt d a) s = complete s (.ok (s.writeBuf d (transform s.omegaN.toNat s.modq (s.source a)))) :=
  congrArg (complete s) (by rw [context_of_valid valid, elements_of_ready ready]; rfl)

/-- R165. -/
theorem exec_intt :
    exec (.intt d a) s = complete s (.ok (s.writeBuf d (transform s.omegaNInv.toNat s.modq (s.source a)))) :=
  congrArg (complete s) (by rw [context_of_valid valid, elements_of_ready ready]; rfl)

/-- R184. -/
theorem exec_pscale :
    exec (.pscale d a) s = complete s (.ok (s.writeBuf d (scale s.modq s.nInv.toNat (s.source a)))) :=
  congrArg (complete s) (by rw [context_of_valid valid, elements_of_ready ready]; rfl)

end

/-! ### Their results -/

theorem getD_map_range (f : Nat → Nat) {n p : Nat} (hp : p < n) : ((List.range n).map f).getD p 0 = f p := by
  rw [List.getD_eq_getElem _ _ (by simpa using hp)]
  simp

/-- R162. -/
theorem getD_bitReverse {ys : List Nat} {k p : Nat} (length : ys.length = 2 ^ k) (hp : p < 2 ^ k) :
    (bitReverse ys).getD p 0 = ys.getD (bitRev k p) 0 := by
  unfold bitReverse
  rw [getD_map_range _ (hp.trans_eq length.symm), length, Nat.log2_two_pow]

theorem transformSum_congr {n q r k : Nat} {f g : Nat → Nat} (same : ∀ j < n, f j = g j) :
    transformSum n q r f k = transformSum n q r g k :=
  congrArg (· % q) (Finset.sum_congr rfl fun j hj => by rw [same j (Finset.mem_range.1 hj)])

/-- R164, R165: the sum over a source buffer. -/
theorem getD_transform_source (s : State) (a : BufIx) (r : Nat) {k : Nat} (hk : k < s.n.toNat) :
    (transform r s.modq (s.source a)).getD k 0 =
      transformSum s.n.toNat s.q.toNat r (fun j => (s.poly a j).toNat) k := by
  unfold transform
  rw [getD_map_range _ (hk.trans_eq (s.length_source a).symm), transformAt_eq, s.length_source]
  exact transformSum_congr fun j hj => s.getD_source a j hj

/-- R184. -/
theorem getD_scale_source (s : State) (a : BufIx) (c : Nat) {k : Nat} (hk : k < s.n.toNat) :
    (scale s.modq c (s.source a)).getD k 0 = (s.poly a k).toNat * c % s.q.toNat := by
  rw [List.getD_eq_getElem _ _ (hk.trans_eq (by simp [State.degree]))]
  simp [scale, mulMod, State.source, State.modq]

/-- R140: a remainder modulo Q is a word. -/
theorem State.PolyReady.mod_lt {s : State} {a : BufIx} (ready : s.PolyReady a) {k : Nat} (hk : k < s.n.toNat)
    (v : Nat) : v % s.q.toNat < 2 ^ 32 :=
  (Nat.mod_lt v (Nat.zero_lt_of_lt (ready k hk))).trans s.q.isLt

/-- Settles O30: every word is its own value, below q or not. -/
theorem bitrevPermutes : Obligations.BitrevPermutes := by
  intro d a s k valid degree
  have moved : ∀ p < s.n.toNat, (bitReverse (s.source a)).getD p 0 = (s.poly a (bitRev k p)).toNat := fun p hp => by
    rw [getD_bitReverse ((s.length_source a).trans degree) (hp.trans_eq degree),
      s.getD_source a _ ((bitRev_lt k p).trans_eq degree.symm)]
  obtain ⟨t, e, written, words⟩ := writesOnlyBuffer_of_exec (d := d) (exec_bitrev valid) (by simp)
    fun p hp => ⟨moved p hp, BitVec.isLt _⟩
  exact ⟨t, e, written, fun p hp => BitVec.eq_of_toNat_eq (words p hp)⟩

/-- R164, R165: the words of a transform are the sums of its formula. -/
theorem transform_writesOnlyBuffer {i : Instr} {d a : BufIx} {s : State} {r : Nat} (ready : s.PolyReady a)
    (e : exec i s = complete s (.ok (s.writeBuf d (transform r s.modq (s.source a))))) :
    ∃ t, exec i s = .next t ∧ WritesOnlyBuffer s t d ∧
      ∀ k < s.n.toNat, (t.poly d k).toNat = transformSum s.n.toNat s.q.toNat r (fun j => (s.poly a j).toNat) k :=
  writesOnlyBuffer_of_exec e (by simp) fun _ hk => ⟨getD_transform_source s a r hk, ready.mod_lt hk _⟩

/-- Settles O31: the root of NTT is OMEGA_N. -/
theorem nttIsTheForwardSum : Obligations.NttIsTheForwardSum := fun _ _ _ valid ready =>
  transform_writesOnlyBuffer ready (exec_ntt valid ready)

/-- Settles O32: the root of INTT is OMEGA_N_INV; R165 writes the exponent i · k in the other order. -/
theorem inttIsTheInverseSum : Obligations.InttIsTheInverseSum := by
  intro d a s valid ready
  obtain ⟨t, e, written, words⟩ := transform_writesOnlyBuffer ready (exec_intt (d := d) valid ready)
  refine ⟨t, e, written, fun i hi => ?_⟩
  simp_rw [mul_comm i]
  exact words i hi

/-- R184. -/
theorem pscale_writesOnlyBuffer (d : BufIx) {a : BufIx} {s : State} (valid : s.status.ctxValid = true)
    (ready : s.PolyReady a) :
    ∃ t, exec (.pscale d a) s = .next t ∧ WritesOnlyBuffer s t d ∧
      ∀ i < s.n.toNat, (t.poly d i).toNat = (s.poly a i).toNat * s.nInv.toNat % s.q.toNat :=
  writesOnlyBuffer_of_exec (exec_pscale valid ready) (by simp) fun _ hi =>
    ⟨getD_scale_source s a _ hi, ready.mod_lt hi _⟩

/-! ### A command that is issued and waited for -/

theorem command_eq_exec {i : Instr} (wf : i.wf = true) (s : State) : command i s = exec i (s.issue (encode i)) :=
  completeStep_of_decode_ok rfl (decodeOfEncodeIsTheInstruction i wf)

theorem SameContext.trans {s t u : State} (h : SameContext s t) (h' : SameContext t u) : SameContext s u where
  config := h'.config.trans h.config
  q := h'.q.trans h.q
  n := h'.n.trans h.n
  omega := h'.omega.trans h.omega
  omegaInv := h'.omegaInv.trans h.omegaInv
  omegaN := h'.omegaN.trans h.omegaN
  omegaNInv := h'.omegaNInv.trans h.omegaNInv
  nInv := h'.nInv.trans h.nInv
  tables k hk := (h'.tables k hk).trans (h.tables k hk)

theorem SameContext.of_issue (s : State) (c : Word) : SameContext s (s.issue c) where
  tables _ _ := rfl

/-- R62, R66: a buffer of at most NMAX words ends below the tables. -/
theorem WritesOnlyBuffer.sameContext {s t : State} {d : BufIx} (h : WritesOnlyBuffer s t d)
    (degree : s.n.toNat ≤ s.config.nmax) : SameContext s t := by
  obtain ⟨frame, bytes⟩ := h
  have inWindow : bufBase d + 4 * s.n.toNat ≤ twBase := by
    have := nmax_le s.config
    unfold bufBase twBase
    omega
  rw [frame]
  exact { tables := fun k hk => bytes k (.inr (inWindow.trans hk)) }

/-- t has the valid context of s, and v 0, v 1, … in buffer d. -/
structure HoldsInContext (s t : State) (d : BufIx) (v : Nat → Nat) : Prop where
  valid : t.status.ctxValid = true
  context : SameContext s t
  words : ∀ k < s.n.toNat, (t.poly d k).toNat = v k

theorem HoldsInContext.refl {s : State} (valid : s.status.ctxValid = true) (a : BufIx) :
    HoldsInContext s s a (fun k => (s.poly a k).toNat) where
  valid := valid
  context := { tables := fun _ _ => rfl }
  words _ _ := rfl

section
variable {s t : State} {a d : BufIx} {v : Nat → Nat} (holds : HoldsInContext s t a v)
include holds

/-- R131: words below q pass the range check of the next command. -/
theorem HoldsInContext.polyReady (below : ∀ k < s.n.toNat, v k < s.q.toNat) : t.PolyReady a := fun k hk => by
  rw [holds.context.n] at hk
  rw [holds.words k hk, holds.context.q]
  exact below k hk

variable (degree : s.n.toNat ≤ s.config.nmax)
include degree

/-- R120, R128: the issue changes nothing that exec reads, and the completion leaves the context as it is. -/
theorem HoldsInContext.command {i : Instr} {w : Nat → Nat} (wf : i.wf = true)
    (result : ∃ u, exec i (t.issue (encode i)) = .next u ∧ WritesOnlyBuffer (t.issue (encode i)) u d ∧
      ∀ k < s.n.toNat, (u.poly d k).toNat = w k) :
    ∃ u, command i t = .next u ∧ HoldsInContext s u d w := by
  obtain ⟨u, e, written, words⟩ := result
  obtain ⟨frame, _⟩ := id written
  have valid : u.status.ctxValid = true := (congrArg (·.status.ctxValid) frame).trans holds.valid
  have issued : SameContext s (t.issue (encode i)) := holds.context.trans (SameContext.of_issue t _)
  have written := written.sameContext (issued.n ▸ issued.config ▸ degree)
  exact ⟨u, (command_eq_exec wf t).trans e, valid, issued.trans written, words⟩

/-- R162. -/
theorem HoldsInContext.bitrev {k : Nat} (power : s.n.toNat = 2 ^ k) :
    ∃ u, Machine.command (.bitrev d a) t = .next u ∧ HoldsInContext s u d (fun p => v (bitRev k p)) := by
  obtain ⟨u, e, written, words⟩ := bitrevPermutes d a (t.issue (encode (.bitrev d a))) k holds.valid
    ((congrArg BitVec.toNat holds.context.n).trans power)
  refine holds.command degree rfl ⟨u, e, written, fun p hp => ?_⟩
  calc
    (u.poly d p).toNat = (t.poly a (bitRev k p)).toNat := congrArg BitVec.toNat (words p (holds.context.n ▸ hp))
    _ = v (bitRev k p) := holds.words _ ((bitRev_lt k p).trans_eq power.symm)

variable (below : ∀ k < s.n.toNat, v k < s.q.toNat)
include below

/-- R164, R165. -/
theorem HoldsInContext.transform {i : Instr} {r : Nat} (wf : i.wf = true)
    (e : exec i (t.issue (encode i)) = complete (t.issue (encode i))
      (.ok ((t.issue (encode i)).writeBuf d (Machine.transform r t.modq (t.source a))))) :
    ∃ u, Machine.command i t = .next u ∧ HoldsInContext s u d (transformSum s.n.toNat s.q.toNat r v) := by
  obtain ⟨u, e, written, words⟩ := transform_writesOnlyBuffer (s := t.issue (encode i)) (holds.polyReady below) e
  refine holds.command degree wf ⟨u, e, written, fun k hk => ?_⟩
  rw [words k (holds.context.n ▸ hk)]
  change transformSum t.n.toNat t.q.toNat r (fun j => (t.poly a j).toNat) k = _
  rw [holds.context.n, holds.context.q]
  exact transformSum_congr holds.words

/-- R164. -/
theorem HoldsInContext.ntt (d : BufIx) :
    ∃ u, Machine.command (.ntt d a) t = .next u ∧
      HoldsInContext s u d (transformSum s.n.toNat s.q.toNat s.omegaN.toNat v) :=
  holds.context.omegaN ▸ holds.transform degree below rfl
    (exec_ntt (s := t.issue _) holds.valid (holds.polyReady below))

/-- R165. -/
theorem HoldsInContext.intt (d : BufIx) :
    ∃ u, Machine.command (.intt d a) t = .next u ∧
      HoldsInContext s u d (transformSum s.n.toNat s.q.toNat s.omegaNInv.toNat v) :=
  holds.context.omegaNInv ▸ holds.transform degree below rfl
    (exec_intt (s := t.issue _) holds.valid (holds.polyReady below))

/-- R184. -/
theorem HoldsInContext.pscale (d : BufIx) :
    ∃ u, Machine.command (.pscale d a) t = .next u ∧
      HoldsInContext s u d (fun k => v k * s.nInv.toNat % s.q.toNat) := by
  obtain ⟨u, e, written, words⟩ := pscale_writesOnlyBuffer d (s := t.issue (encode (.pscale d a))) holds.valid
    (holds.polyReady below)
  refine holds.command degree rfl ⟨u, e, written, fun k hk => ?_⟩
  rw [words k (holds.context.n ▸ hk)]
  change (t.poly a k).toNat * t.nInv.toNat % t.q.toNat = _
  rw [holds.words k hk, holds.context.nInv, holds.context.q]

end

/-! ### Bit reversal twice -/

theorem bitRev_bitRev {k i : Nat} (hi : i < 2 ^ k) : bitRev k (bitRev k i) = i := by
  refine Nat.eq_of_testBit_eq fun j => ?_
  obtain low | high := Nat.lt_or_ge j k
  · rw [testBit_bitRev _ low, testBit_bitRev _ (by omega)]
    congr 1
    omega
  · have bound : 2 ^ k ≤ 2 ^ j := Nat.pow_le_pow_right (by decide) high
    rw [Nat.testBit_lt_two_pow ((bitRev_lt k _).trans_le bound), Nat.testBit_lt_two_pow (hi.trans_le bound)]

/-- Settles O38: bit reversal is its own inverse. -/
theorem bitrevTwiceIsTheIdentity : Obligations.BitrevTwiceIsTheIdentity := by
  intro d e a s valid context
  obtain ⟨⟨⟨k, power⟩, degree⟩, _⟩ := context.parameters
  obtain ⟨s1, e1, once⟩ := (HoldsInContext.refl valid a).bitrev (d := d) degree power
  obtain ⟨s2, e2, twice⟩ := once.bitrev (d := e) degree power
  refine ⟨s1, s2, e1, e2, fun i hi => BitVec.eq_of_toNat_eq ?_⟩
  rw [twice.words i hi, bitRev_bitRev (hi.trans_eq power)]

end Sys2Proof.Machine
end

section
/-! PROOFS. The sums of the transforms (R164, R165) as sums in ℤ/q, the relations of a valid context (R45) there, and the
round trip (R167). -/

namespace Sys2Proof.Machine

/-! ### Root sums -/

/-- Word k of the length-n transform of f with root ζ, in any ring. -/
def rootSum {R : Type} [CommRing R] (n : Nat) (ζ : R) (f : Nat → R) (k : Nat) : R :=
  ∑ j ∈ Finset.range n, f j * ζ ^ (j * k)

/-- R164, R165: the formula of a transform is a root sum in ℤ/q. -/
theorem natCast_transformSum (n q r : Nat) (f : Nat → Nat) (k : Nat) :
    (transformSum n q r f k : ZMod q) = rootSum n (r : ZMod q) (fun j => (f j : ZMod q)) k := by
  simp [transformSum, rootSum]

/-- The powers of a root ζ ≠ 1 of xⁿ − 1 add up to 0, so that ζʲ against ζ⁻ⁱ leaves n or nothing. -/
theorem sum_pow_primitiveRoot {R : Type} [CommRing R] [IsDomain R] {n i j : Nat} {ζ ξ : R}
    (primitive : IsPrimitiveRoot ζ n) (inverse : ζ * ξ = 1) (hi : i < n) (hj : j < n) :
    ∑ k ∈ Finset.range n, (ζ ^ j * ξ ^ i) ^ k = if j = i then (n : R) else 0 := by
  have powers (e : Nat) : ζ ^ e * ξ ^ e = 1 := by rw [← mul_pow, inverse, one_pow]
  split
  case isTrue same =>
    subst same
    simp [powers]
  case isFalse different =>
    have notOne : ζ ^ j * ξ ^ i - 1 ≠ 0 := fun zero => different <| primitive.pow_inj hj hi <| by
      calc
        ζ ^ j = ζ ^ j * ξ ^ i * ζ ^ i := by rw [mul_assoc, mul_comm (ξ ^ i), powers, mul_one]
        _ = ζ ^ i := by rw [sub_eq_zero.1 zero, one_mul]
    have ξ_pow : ξ ^ n = 1 := by rw [← powers n, primitive.pow_eq_one, one_mul]
    have root : (ζ ^ j * ξ ^ i) ^ n = 1 := by
      rw [mul_pow, pow_right_comm, pow_right_comm ξ, primitive.pow_eq_one, ξ_pow, one_pow, one_pow, one_mul]
    refine (mul_eq_zero.1 ?_).resolve_right notOne
    rw [geom_sum_mul, root, sub_self]

/-- R167, in a domain: the transform with the inverse root gives n times the sequence. -/
theorem rootSum_rootSum {R : Type} [CommRing R] [IsDomain R] {n i : Nat} {ζ ξ : R} (primitive : IsPrimitiveRoot ζ n)
    (inverse : ζ * ξ = 1) (hi : i < n) (f : Nat → R) : rootSum n ξ (rootSum n ζ f) i = n * f i := by
  have term (j k : Nat) : f j * ζ ^ (j * k) * ξ ^ (k * i) = f j * (ζ ^ j * ξ ^ i) ^ k := by
    rw [mul_pow, ← pow_mul, ← pow_mul, mul_comm i, mul_assoc]
  calc
    rootSum n ξ (rootSum n ζ f) i
      = ∑ k ∈ Finset.range n, ∑ j ∈ Finset.range n, f j * (ζ ^ j * ξ ^ i) ^ k := by
        simp_rw [rootSum, Finset.sum_mul, term]
    _ = ∑ j ∈ Finset.range n, f j * ∑ k ∈ Finset.range n, (ζ ^ j * ξ ^ i) ^ k := by
        rw [Finset.sum_comm]
        simp_rw [Finset.mul_sum]
    _ = ∑ j ∈ Finset.range n, f j * if j = i then (n : R) else 0 :=
        Finset.sum_congr rfl fun j hj => by rw [sum_pow_primitiveRoot primitive inverse hi (Finset.mem_range.1 hj)]
    _ = n * f i := by simp [hi, mul_comm]

/-- Numbers below q that are equal in ℤ/q. -/
theorem eq_of_natCast_eq {q a b : Nat} (ha : a < q) (hb : b < q) (h : (a : ZMod q) = b) : a = b := by
  have := (ZMod.natCast_eq_natCast_iff' a b q).1 h
  rwa [Nat.mod_eq_of_lt ha, Nat.mod_eq_of_lt hb] at this

/-! ### A valid context in ℤ/q -/

section
variable {s : State} (context : s.ContextOk)
include context

theorem State.ContextOk.omega_pow_n : (s.omega.toNat : ZMod s.q.toNat) ^ s.n.toNat = -1 := by
  obtain ⟨_, hq, _⟩ := context.parameters
  obtain ⟨_, root⟩ := context.root
  rw [← Nat.cast_pow, ← ZMod.natCast_mod, root, Nat.cast_pred (by omega), ZMod.natCast_self, zero_sub]

/-- R45: 2n divides q − 1, so ω^(q−2) is the inverse of ω, for any q. -/
theorem State.ContextOk.omega_mul_omegaInv : (s.omega.toNat : ZMod s.q.toNat) * s.omegaInv.toNat = 1 := by
  obtain ⟨_, hq, divides, _⟩ := context.parameters
  obtain ⟨c, hc⟩ := Nat.dvd_of_mod_eq_zero divides
  have exponent : s.q.toNat - 2 + 1 = s.n.toNat * 2 * c := by rw [mul_comm s.n.toNat, ← hc]; omega
  rw [context.omegaInv, ZMod.natCast_mod, Nat.cast_pow, ← pow_succ', exponent, pow_mul, pow_mul, context.omega_pow_n]
  simp

theorem State.ContextOk.omegaInv_pow_n : (s.omegaInv.toNat : ZMod s.q.toNat) ^ s.n.toNat = -1 := by
  have inverse := congrArg (· ^ s.n.toNat) context.omega_mul_omegaInv
  simp only [mul_pow, context.omega_pow_n, one_pow, neg_one_mul] at inverse
  exact neg_eq_iff_eq_neg.1 inverse

theorem State.ContextOk.natCast_omegaN : (s.omegaN.toNat : ZMod s.q.toNat) = (s.omega.toNat : ZMod s.q.toNat) ^ 2 := by
  rw [context.omegaN, ZMod.natCast_mod, Nat.cast_pow]

theorem State.ContextOk.natCast_omegaNInv :
    (s.omegaNInv.toNat : ZMod s.q.toNat) = (s.omegaInv.toNat : ZMod s.q.toNat) ^ 2 := by
  rw [context.omegaNInv, ZMod.natCast_mod, Nat.cast_pow]

theorem State.ContextOk.omegaN_mul_omegaNInv : (s.omegaN.toNat : ZMod s.q.toNat) * s.omegaNInv.toNat = 1 := by
  rw [context.natCast_omegaN, context.natCast_omegaNInv, ← mul_pow, context.omega_mul_omegaInv, one_pow]

/-- R45: ω² has order n. -/
theorem State.ContextOk.omegaN_primitive : IsPrimitiveRoot (s.omegaN.toNat : ZMod s.q.toNat) s.n.toNat := by
  have primitive := IsPrimitiveRoot.orderOf (s.omega.toNat : ZMod s.q.toNat)
  obtain ⟨⟨⟨k, degree⟩, _⟩, _⟩ := context.parameters
  have positive : 0 < s.n.toNat := degree ▸ Nat.two_pow_pos k
  rw [contextRootHasOrderTwoN s context] at primitive
  rw [context.natCast_omegaN]
  exact primitive.pow (by omega) rfl

/-- R167: for prime q, the sums of NTT and INTT together give n times the sequence. -/
theorem State.ContextOk.transformSum_transformSum (prime : s.q.toNat.Prime) (f : Nat → Nat) {i : Nat}
    (hi : i < s.n.toNat) :
    transformSum s.n.toNat s.q.toNat s.omegaNInv.toNat (transformSum s.n.toNat s.q.toNat s.omegaN.toNat f) i =
      s.n.toNat * f i % s.q.toNat := by
  have field : Fact s.q.toNat.Prime := ⟨prime⟩
  refine eq_of_natCast_eq (Nat.mod_lt _ prime.pos) (Nat.mod_lt _ prime.pos) ?_
  rw [natCast_transformSum, funext (natCast_transformSum _ _ _ f),
    rootSum_rootSum context.omegaN_primitive context.omegaN_mul_omegaNInv hi, ZMod.natCast_mod, Nat.cast_mul]

/-- R45, R184: for prime q, N_INV is the inverse of n, which q ≡ 1 modulo 2n makes coprime to q. -/
theorem State.ContextOk.n_mul_nInv (prime : s.q.toNat.Prime) : s.n.toNat * s.nInv.toNat % s.q.toNat = 1 := by
  obtain ⟨_, hq, divides, _⟩ := context.parameters
  have factor : s.n.toNat ∣ s.q.toNat - 1 := (Nat.dvd_mul_left _ 2).trans (Nat.dvd_of_mod_eq_zero divides)
  have coprime : s.n.toNat.Coprime s.q.toNat :=
    ((Nat.coprime_self_sub_left (by omega)).2 (Nat.coprime_one_left _)).coprime_dvd_left factor
  rw [context.nInv]
  exact mul_pow_sub_two_mod prime coprime

end

/-! ### The round trip of the commands -/

theorem transformSum_lt {n q : Nat} (positive : 0 < q) (r : Nat) (f : Nat → Nat) (k : Nat) :
    transformSum n q r f k < q := Nat.mod_lt _ positive

/-- Settles O39: the commands compute the two sums, which together multiply by n, and N_INV takes n away. -/
theorem inverseTransformScaledIsTheIdentity : Obligations.InverseTransformScaledIsTheIdentity := by
  intro d e f a s valid context prime ready
  obtain ⟨⟨_, degree⟩, _⟩ := context.parameters
  obtain ⟨s1, e1, forward⟩ := (HoldsInContext.refl valid a).ntt degree ready d
  obtain ⟨s2, e2, back⟩ := forward.intt degree (fun k _ => transformSum_lt prime.pos _ _ k) e
  obtain ⟨s3, e3, scaled⟩ := back.pscale degree (fun k _ => transformSum_lt prime.pos _ _ k) f
  refine ⟨s1, s2, s3, e1, e2, e3, fun i hi => ?times, fun i hi => BitVec.eq_of_toNat_eq ?identity⟩
  case times => rw [back.words i hi, context.transformSum_transformSum prime _ hi]
  case identity =>
    calc
      (s3.poly f i).toNat = s.n.toNat * (s.poly a i).toNat % s.q.toNat * s.nInv.toNat % s.q.toNat := by
        rw [scaled.words i hi, context.transformSum_transformSum prime _ hi]
      _ = (s.poly a i).toNat * (s.n.toNat * s.nInv.toNat % s.q.toNat) % s.q.toNat := by
        rw [Nat.mod_mul_mod, Nat.mul_mod_mod, mul_comm s.n.toNat, mul_assoc]
      _ = (s.poly a i).toNat := by rw [context.n_mul_nInv prime, mul_one, Nat.mod_eq_of_lt (ready i hi)]

end Sys2Proof.Machine
end

section
/-! PROOFS. The reference butterfly network (R163) computes the sums of the transforms (R166). -/

namespace Sys2Proof.Machine

/-! ### Halving a root sum -/

section
variable {R : Type} [CommRing R] {ζ : R} {L : Nat} (f : Nat → R) (k : Nat)

/-- The even and the odd terms of a sum are two sums of half the length, with the root ζ². -/
theorem rootSum_two_mul : rootSum (2 * L) ζ f k =
    rootSum L (ζ ^ 2) (fun t => f (2 * t)) k + ζ ^ k * rootSum L (ζ ^ 2) (fun t => f (2 * t + 1)) k := by
  unfold rootSum
  induction L with
  | zero => simp
  | succ L ih =>
    rw [Nat.mul_succ, Finset.sum_range_succ, Finset.sum_range_succ, ih, Finset.sum_range_succ, Finset.sum_range_succ]
    ring

theorem rootSum_add_period (period : ζ ^ L = 1) : rootSum L ζ f (k + L) = rootSum L ζ f k :=
  Finset.sum_congr rfl fun t _ => by
    rw [mul_add, pow_add, mul_comm t L, pow_mul ζ L, period, one_pow, mul_one]

/-- In the second half of the words, ζ^L = −1 turns the sign of the odd terms. -/
theorem rootSum_two_mul_add_half (half : ζ ^ L = -1) : rootSum (2 * L) ζ f (k + L) =
    rootSum L (ζ ^ 2) (fun t => f (2 * t)) k - ζ ^ k * rootSum L (ζ ^ 2) (fun t => f (2 * t + 1)) k := by
  have period : (ζ ^ 2) ^ L = 1 := by rw [pow_right_comm, half, neg_one_sq]
  rw [rootSum_two_mul, rootSum_add_period _ _ period, rootSum_add_period _ _ period, pow_add, half]
  ring

end

/-! ### One stage -/

/-- A place past the end of a sequence reads 0. -/
theorem getD_lt_of_forall_mem {q : Nat} {ys : List Nat} (positive : 0 < q) (below : ∀ y ∈ ys, y < q) (p : Nat) :
    ys.getD p 0 < q := by
  obtain inside | outside := Nat.lt_or_ge p ys.length
  · rw [List.getD_eq_getElem _ _ inside]
    exact below _ (List.getElem_mem inside)
  · rwa [List.getD_eq_default _ _ outside]

theorem forall_mem_bitReverse_lt {q : Nat} {ys : List Nat} (positive : 0 < q) (below : ∀ y ∈ ys, y < q) :
    ∀ y ∈ bitReverse ys, y < q :=
  List.forall_mem_map.2 fun _ _ => getD_lt_of_forall_mem positive below _

theorem natCast_butterfly {a q : Nat} (ha : a < q) (b w : Nat) :
    ((butterfly a b w q).1 : ZMod q) = a + w * b ∧ ((butterfly a b w q).2 : ZMod q) = a - w * b := by
  constructor
  · rw [butterfly_fst, ZMod.natCast_mod, Nat.cast_add, Nat.cast_mul]
  · have difference := congrArg (Int.cast (R := ZMod q)) (butterfly_snd ha b w)
    simpa using difference

section
variable {q : Nat} {tbl ys : List Nat}

@[simp] theorem length_netStage (len : Nat) : (netStage q len tbl ys).length = ys.length := by simp [netStage]

@[simp] theorem length_netStages (m : Nat) : (netStages q tbl ys m).length = ys.length := by
  induction m with
  | zero => rfl
  | succ m ih => rw [netStages, length_netStage, ih]

/-- R140, R160: a stage keeps words below q. -/
theorem forall_mem_netStage_lt (positive : 0 < q) (below : ∀ y ∈ ys, y < q) (len : Nat) :
    ∀ y ∈ netStage q len tbl ys, y < q := by
  have word := getD_lt_of_forall_mem positive below
  refine List.forall_mem_map.2 fun p _ => ?_
  dsimp only
  split
  · exact (butterfly_lt (word _) _ _).1
  · exact (butterfly_lt (word _) _ _).2

theorem forall_mem_netStages_lt (positive : 0 < q) (below : ∀ y ∈ ys, y < q) (m : Nat) :
    ∀ y ∈ netStages q tbl ys m, y < q := by
  induction m with
  | zero => exact below
  | succ m ih => exact forall_mem_netStage_lt positive ih _

section
variable {L b j : Nat} (hj : j < L) (inside : L * (2 * b + 1) + j < ys.length)
include hj inside

/-- R163: block b of a stage with block length 2·L joins the blocks 2·b and 2·b + 1 of length L, by one butterfly for each
offset j. -/
theorem getD_netStage :
    let r := butterfly (ys.getD (L * (2 * b) + j) 0) (ys.getD (L * (2 * b + 1) + j) 0)
      (tbl.getD (2 * j * (ys.length / (2 * L))) 0) q
    (netStage q (2 * L) tbl ys).getD (2 * L * b + j) 0 = r.1 ∧
      (netStage q (2 * L) tbl ys).getD (2 * L * b + (j + L)) 0 = r.2 := by
  have first : L * (2 * b) = 2 * L * b := by ring
  have second : L * (2 * b + 1) + j = 2 * L * b + (j + L) := by ring
  have half : 2 * L / 2 = L := by omega
  have low : (2 * L * b + j) % (2 * L) = j := by rw [Nat.mul_add_mod, Nat.mod_eq_of_lt (by omega)]
  have high : (2 * L * b + (j + L)) % (2 * L) = j + L := by rw [Nat.mul_add_mod, Nat.mod_eq_of_lt (by omega)]
  rw [second] at inside ⊢
  rw [first]
  unfold netStage
  constructor
  · rw [getD_map_range _ (by omega)]
    simp only [half, low, Nat.mod_eq_of_lt hj, if_pos hj, Nat.add_assoc]
  · have before : 2 * L * b + (j + L) - L = 2 * L * b + j := by omega
    rw [getD_map_range _ inside]
    simp only [half, high, Nat.add_mod_right, Nat.mod_eq_of_lt hj, before, if_neg (Nat.not_lt.2 (Nat.le_add_left L j))]

/-- Where the two blocks hold the sums of the even and of the odd terms of f and the twiddle is ζ^j, the joined block
holds the sums of f. -/
theorem natCast_getD_netStage {ζ : ZMod q} {f : Nat → ZMod q} (below : ∀ p, ys.getD p 0 < q) (half : ζ ^ L = -1)
    (twiddle : (tbl.getD (2 * j * (ys.length / (2 * L))) 0 : ZMod q) = ζ ^ j)
    (even : (ys.getD (L * (2 * b) + j) 0 : ZMod q) = rootSum L (ζ ^ 2) (fun t => f (2 * t)) j)
    (odd : (ys.getD (L * (2 * b + 1) + j) 0 : ZMod q) = rootSum L (ζ ^ 2) (fun t => f (2 * t + 1)) j) :
    ((netStage q (2 * L) tbl ys).getD (2 * L * b + j) 0 : ZMod q) = rootSum (2 * L) ζ f j ∧
      ((netStage q (2 * L) tbl ys).getD (2 * L * b + (j + L)) 0 : ZMod q) = rootSum (2 * L) ζ f (j + L) := by
  obtain ⟨low, high⟩ := getD_netStage (q := q) (tbl := tbl) hj inside
  obtain ⟨sum, difference⟩ := natCast_butterfly (below (L * (2 * b) + j)) (ys.getD (L * (2 * b + 1) + j) 0)
    (tbl.getD (2 * j * (ys.length / (2 * L))) 0)
  rw [low, high, sum, difference, even, odd, twiddle, rootSum_two_mul, rootSum_two_mul_add_half _ _ half]
  exact ⟨rfl, rfl⟩

end

end

/-! ### All stages -/

/-- The words of the half block 2·b are the even ones of block b. -/
theorem bitRev_two_mul_index (c b t : Nat) :
    2 ^ (c + 1) * t + bitRev (c + 1) (2 * b) = 2 ^ c * (2 * t) + bitRev c b := by
  have bit : 2 * b % 2 = 0 := by omega
  have rest : 2 * b / 2 = b := by omega
  rw [bitRev, bit, rest]
  ring

/-- The words of the half block 2·b + 1 are the odd ones of block b. -/
theorem bitRev_two_mul_add_one_index (c b t : Nat) :
    2 ^ (c + 1) * t + bitRev (c + 1) (2 * b + 1) = 2 ^ c * (2 * t + 1) + bitRev c b := by
  have bit : (2 * b + 1) % 2 = 1 := by omega
  have rest : (2 * b + 1) / 2 = b := by omega
  rw [bitRev, bit, rest]
  ring

/-- The invariant of the network, for a root w² and 2^c blocks of length 2^m: block b of zs is the transform of the words
of ys whose index has rev(b) in its low c bits. -/
def HoldsBlockSums {q : Nat} (w : ZMod q) (ys : List Nat) (m c : Nat) (zs : List Nat) : Prop :=
  ∀ b < 2 ^ c, ∀ j < 2 ^ m, (zs.getD (2 ^ m * b + j) 0 : ZMod q) =
    rootSum (2 ^ m) (w ^ (2 * 2 ^ c)) (fun t => (ys.getD (2 ^ c * t + bitRev c b) 0 : ZMod q)) j

section
variable {q : Nat} {tbl ys zs : List Nat} {w : ZMod q}

/-- R162: the blocks of length 1. -/
theorem holdsBlockSums_bitReverse {k : Nat} (length : ys.length = 2 ^ k) :
    HoldsBlockSums w ys 0 k (bitReverse ys) := by
  intro b hb j hj
  obtain rfl : j = 0 := Nat.lt_one_iff.1 hj
  rw [pow_zero, one_mul, add_zero, getD_bitReverse length hb]
  simp [rootSum]

/-- R163: a stage reads T at the powers of the root ζ of the joined blocks, and joins the blocks in pairs. -/
theorem HoldsBlockSums.netStage {m c : Nat} (holds : HoldsBlockSums w ys m (c + 1) zs)
    (length : zs.length = 2 ^ (m + 1 + c)) (below : ∀ p, zs.getD p 0 < q) (root : w ^ 2 ^ (m + 1 + c) = -1)
    (table : ∀ i < 2 ^ (m + 1 + c), (tbl.getD i 0 : ZMod q) = w ^ i) :
    HoldsBlockSums w ys (m + 1) c (netStage q (2 ^ (m + 1)) tbl zs) := by
  intro b hb
  have total : 2 ^ (m + 1 + c) = 2 * 2 ^ m * 2 ^ c := by ring
  rw [total] at length root table
  have blocks : zs.length / (2 * 2 ^ m) = 2 ^ c := by rw [length, Nat.mul_div_cancel_left _ (by positivity)]
  have half : (w ^ (2 * 2 ^ c)) ^ 2 ^ m = -1 := by rw [← root]; ring
  have square : w ^ (2 * 2 ^ (c + 1)) = (w ^ (2 * 2 ^ c)) ^ 2 := by ring
  have joined (i : Nat) (hi : i < 2 ^ m) := by
    have inside : 2 ^ m * (2 * b + 1) + i < zs.length := by
      calc
        2 ^ m * (2 * b + 1) + i < 2 ^ m * (2 * b + 1) + 2 ^ m := by omega
        _ = 2 * 2 ^ m * (b + 1) := by ring
        _ ≤ zs.length := length ▸ Nat.mul_le_mul_left _ hb
    have twiddle : (tbl.getD (2 * i * (zs.length / (2 * 2 ^ m))) 0 : ZMod q) = (w ^ (2 * 2 ^ c)) ^ i := by
      rw [blocks, table _ (by gcongr)]
      ring
    have even := holds (2 * b) (by omega) i hi
    have odd := holds (2 * b + 1) (by omega) i hi
    simp only [bitRev_two_mul_index, square] at even
    simp only [bitRev_two_mul_add_one_index, square] at odd
    exact natCast_getD_netStage (f := fun t => (ys.getD (2 ^ c * t + bitRev c b) 0 : ZMod q)) hi inside below half
      twiddle even odd
  rw [pow_succ']
  intro j hj
  obtain low | high := Nat.lt_or_ge j (2 ^ m)
  · exact (joined j low).1
  · obtain ⟨i, rfl⟩ := Nat.exists_eq_add_of_le' high
    exact (joined i (by omega)).2

section
variable (positive : 0 < q) (below : ∀ y ∈ ys, y < q)
include positive below

theorem holdsBlockSums_netStages {m c : Nat} (length : ys.length = 2 ^ (m + c)) (root : w ^ 2 ^ (m + c) = -1)
    (table : ∀ i < 2 ^ (m + c), (tbl.getD i 0 : ZMod q) = w ^ i) :
    HoldsBlockSums w ys m c (netStages q tbl (bitReverse ys) m) := by
  induction m generalizing c with
  | zero => exact holdsBlockSums_bitReverse (Nat.zero_add c ▸ length)
  | succ m ih =>
    have words := forall_mem_netStages_lt (tbl := tbl) positive (forall_mem_bitReverse_lt positive below) m
    have shift : m + 1 + c = m + (c + 1) := by omega
    have before : HoldsBlockSums w ys m (c + 1) (netStages q tbl (bitReverse ys) m) :=
      ih (shift ▸ length) (shift ▸ root) (shift ▸ table)
    exact before.netStage (by simpa using length) (getD_lt_of_forall_mem positive words) root table

/-- R166: for a root r = w² with wⁿ = −1 and the table of the powers of w, the network computes the sums. -/
theorem getD_net {n k r : Nat} (power : n = 2 ^ k) (length : ys.length = n) (root : w ^ n = -1)
    (table : ∀ i < n, (tbl.getD i 0 : ZMod q) = w ^ i) (square : (r : ZMod q) = w ^ 2) {i : Nat} (hi : i < n) :
    (net q tbl ys).getD i 0 = transformSum n q r (fun j => ys.getD j 0) i := by
  subst power
  have sums := holdsBlockSums_netStages (c := 0) positive below length root table 0 Nat.one_pos i hi
  have words := forall_mem_netStages_lt (tbl := tbl) positive (forall_mem_bitReverse_lt positive below) k
  unfold net
  rw [length, Nat.log2_two_pow]
  refine eq_of_natCast_eq (getD_lt_of_forall_mem positive words i) (transformSum_lt positive _ _ _) ?_
  rw [natCast_transformSum, square]
  simpa [bitRev] using sums

end

end

/-! ### The network in a valid context -/

section
variable {s : State} (context : s.ContextOk) {i : Nat} (hi : i < s.n.toNat)
include context hi

/-- R43. -/
theorem State.ContextOk.natCast_getD_twiddles :
    (s.twiddles.getD i 0 : ZMod s.q.toNat) = (s.omega.toNat : ZMod s.q.toNat) ^ i := by
  have read : s.twiddles.getD i 0 = (s.tw i).toNat := getD_map_range _ hi
  rw [read, context.tw i hi, ZMod.natCast_mod, Nat.cast_pow]

/-- R44. -/
theorem State.ContextOk.natCast_getD_inverseTwiddles :
    (s.inverseTwiddles.getD i 0 : ZMod s.q.toNat) = (s.omegaInv.toNat : ZMod s.q.toNat) ^ i := by
  have read : s.inverseTwiddles.getD i 0 = (s.twi i).toNat := getD_map_range _ hi
  rw [read, context.twi i hi, ZMod.natCast_mod, Nat.cast_pow]

end

/-- Settles O42: TW and TWI are the powers of ω and of its inverse, whose n-th powers are −1 for any q. -/
theorem butterflyNetworkEqualsTheSums : Obligations.ButterflyNetworkEqualsTheSums := by
  intro s ys context length below k hk
  obtain ⟨⟨⟨_, power⟩, _⟩, hq, _⟩ := context.parameters
  have positive : 0 < s.q.toNat := Nat.zero_lt_of_lt hq
  exact ⟨getD_net positive below power length context.omega_pow_n (fun _ => context.natCast_getD_twiddles)
      context.natCast_omegaN hk,
    getD_net positive below power length context.omegaInv_pow_n (fun _ => context.natCast_getD_inverseTwiddles)
      context.natCast_omegaNInv hk⟩

end Sys2Proof.Machine
end

section
/-! PROOFS. CTXSET (R180–R182): what it does in each outcome of its two checks, and why a failure leaves no context. -/

namespace Sys2Proof.Machine

/-! ### The outcomes of the checks -/

section
variable {s : State}

/-- R180. -/
theorem contextParameters_of_ok (good : s.ParametersOk) : contextParameters s = .ok () :=
  ((contextParameters_cases s).resolve_right fun rejected => rejected.1 good).2

theorem contextParameters_of_bad (bad : ¬ s.ParametersOk) : contextParameters s = .error .invalidInput :=
  ((contextParameters_cases s).resolve_left fun passed => bad passed.1).2

/-- R181. -/
theorem contextRoots_of_ok (good : s.RootOk) : contextRoots s = .ok () :=
  ((contextRoots_cases s).resolve_right fun rejected => rejected.1 good).2

theorem contextRoots_of_bad (bad : ¬ s.RootOk) : contextRoots s = .error .invalidRoot :=
  ((contextRoots_cases s).resolve_left fun passed => bad passed.1).2

/-- R180: the parameters are the first check. -/
theorem exec_ctxset_of_badParameters (bad : ¬ s.ParametersOk) :
    exec .ctxset s = complete s (.error .invalidInput) :=
  congrArg (complete s) (by rw [contextParameters_of_bad bad]; rfl)

variable (parameters : s.ParametersOk)
include parameters

/-- R181: the roots are the second check. -/
theorem exec_ctxset_of_badRoot (bad : ¬ s.RootOk) : exec .ctxset s = complete s (.error .invalidRoot) :=
  congrArg (complete s) (by rw [contextParameters_of_ok parameters, bind_ok, contextRoots_of_bad bad]; rfl)

/-- R182. -/
theorem exec_ctxset (root : s.RootOk) : exec .ctxset s = complete s (.ok s.loadContext) :=
  congrArg (complete s) (by rw [contextParameters_of_ok parameters, bind_ok, contextRoots_of_ok root]; rfl)

end

/-! ### Its errors and its results -/

/-- Settles O26. -/
theorem ctxsetChecksItsParameters : Obligations.CtxsetChecksItsParameters := fun s bad =>
  (exec_ctxset_of_badParameters bad).trans (complete_error_eq_afterError s (code := .invalidInput) (by decide))

/-- Settles O27. -/
theorem ctxsetChecksItsRoot : Obligations.CtxsetChecksItsRoot := fun s parameters bad =>
  (exec_ctxset_of_badRoot parameters bad).trans (complete_error_eq_afterError s (code := .invalidRoot) (by decide))

/-- R182: CTXSET writes no byte outside the first n words of its two tables. -/
theorem readByte_loadContext_of_outside (s : State) {k : Nat} (tw : k < twBase ∨ twBase + 4 * s.n.toNat ≤ k)
    (twi : k < twiBase ∨ twiBase + 4 * s.n.toNat ≤ k) : s.loadContext.mem.readByte k = s.mem.readByte k := by
  unfold State.loadContext
  simp only
  rw [Memory.readByte_writeWords_of_outside _ _ _ _ (by simpa using twi),
    Memory.readByte_writeWords_of_outside _ _ _ _ (by simpa using tw)]

/-- Settles O25: the values are the relations of R45, which `loadContext_contextOk` says that CTXSET establishes. -/
theorem ctxsetBuildsTheContext : Obligations.CtxsetBuildsTheContext := by
  intro s parameters root
  have built := loadContext_contextOk parameters root
  refine ⟨_, exec_ctxset parameters root, ?frame, built.omegaInv, ?omegaN, ?omegaNInv, built.nInv, built.tw, built.twi,
    fun k tw twi => readByte_loadContext_of_outside s tw twi⟩
  case frame =>
    rw [State.finish_ok]
    rfl
  case omegaN => exact built.omegaN.trans (by rw [pow_two]; rfl)
  case omegaNInv => exact built.omegaNInv.trans (by rw [pow_two]; rfl)

/-- Settles O28: with a context, R45 says that both checks pass; and a failure leaves CTXVALID as it was. -/
theorem failedCtxsetLeavesNoContext : Obligations.FailedCtxsetLeavesNoContext := by
  intro s t inv done failed
  have before : s.status.ctxValid = false := by
    by_contra valid
    have context := inv.context (Bool.eq_true_of_not_eq_false valid)
    cases done.symm.trans (exec_ctxset context.parameters context.root)
    exact failed rfl
  have after : t = s.afterError t.status.lastCode := failedCommandWritesOnlyStatus .ctxset s t done failed
  exact ⟨before, (congrArg (·.status.ctxValid) after).trans before⟩

end Sys2Proof.Machine
end

section
/-! PROOFS. The commands that multiply words: PMUL, TWIST and UNTWIST (R183, R185, R186), and the five steps of NCONV
(R187). -/

namespace Sys2Proof.Machine

/-! ### The commands on inputs that pass their checks -/

section
variable {d a b : BufIx} {s : State} (valid : s.status.ctxValid = true) (readyA : s.PolyReady a)
include valid readyA

/-- R185. -/
theorem exec_twist :
    exec (.twist d a) s = complete s (.ok (s.writeBuf d (pointwise s.modq (s.source a) s.twiddles))) :=
  congrArg (complete s) (by rw [context_of_valid valid, elements_of_ready readyA]; rfl)

/-- R186. -/
theorem exec_untwist :
    exec (.untwist d a) s =
      complete s (.ok (s.writeBuf d (scalePointwise s.modq s.nInv.toNat (s.source a) s.inverseTwiddles))) :=
  congrArg (complete s) (by rw [context_of_valid valid, elements_of_ready readyA]; rfl)

variable (readyB : s.PolyReady b)
include readyB

/-- R183. -/
theorem exec_pmul :
    exec (.pmul d a b) s = complete s (.ok (s.writeBuf d (pointwise s.modq (s.source a) (s.source b)))) :=
  congrArg (complete s)
    (by rw [context_of_valid valid, bind_ok, elements_of_ready readyA, bind_ok, elements_of_ready readyB]; rfl)

/-- R187. -/
theorem exec_nconv :
    exec (.nconv d a b) s = complete s (.ok (s.writeBuf d (negacyclic s.modq s.omegaN.toNat s.omegaNInv.toNat
      s.nInv.toNat s.twiddles s.inverseTwiddles (s.source a) (s.source b)))) :=
  congrArg (complete s)
    (by rw [context_of_valid valid, bind_ok, elements_of_ready readyA, bind_ok, elements_of_ready readyB]; rfl)

end

/-! ### Sequences word by word -/

/-- ys is the sequence v 0, v 1, …, v (n − 1). -/
structure Lists (n : Nat) (v : Nat → Nat) (ys : List Nat) : Prop where
  length : ys.length = n
  getD : ∀ k < n, ys.getD k 0 = v k

section
variable {n q : Nat} {f g : Nat → Nat} {ys zs : List Nat}

theorem lists_map_range (n : Nat) (f : Nat → Nat) : Lists n f ((List.range n).map f) where
  length := by simp
  getD _ hk := getD_map_range f hk

theorem Lists.zipWith (h : Nat → Nat → Nat) (hy : Lists n f ys) (hz : Lists n g zs) :
    Lists n (fun k => h (f k) (g k)) (List.zipWith h ys zs) where
  length := by rw [List.length_zipWith, hy.length, hz.length, min_self]
  getD k hk := by
    have inY := hk.trans_eq hy.length.symm
    have inZ := hk.trans_eq hz.length.symm
    rw [← hy.getD k hk, ← hz.getD k hk, List.getD_eq_getElem _ _ inY, List.getD_eq_getElem _ _ inZ,
      List.getD_eq_getElem _ _ (by simpa using ⟨inY, inZ⟩), List.getElem_zipWith]

/-- R183, R185. -/
theorem Lists.pointwise (hy : Lists n f ys) (hz : Lists n g zs) :
    Lists n (fun k => f k * g k % q) (pointwise q ys zs) :=
  hy.zipWith (fun y z => mulMod y z q) hz

/-- R186. -/
theorem Lists.scalePointwise {c : Nat} (hy : Lists n f ys) (hz : Lists n g zs) :
    Lists n (fun k => f k * c * g k % q) (scalePointwise q c ys zs) :=
  hy.zipWith (fun y z => y * c * z % q) hz

/-- R164, R165. -/
theorem Lists.transform {r : Nat} (hy : Lists n f ys) : Lists n (transformSum n q r f) (transform r q ys) where
  length := (length_transform r q ys).trans hy.length
  getD k hk := by
    unfold Machine.transform
    rw [getD_map_range _ (hk.trans_eq hy.length.symm), transformAt_eq, hy.length]
    exact transformSum_congr hy.getD

end

/-! ### The five steps -/

/-- R187, step 1: word i of the twisted source. -/
def State.twistWord (s : State) (a : BufIx) (i : Nat) : Nat := (s.poly a i).toNat * (s.tw i).toNat % s.q.toNat

/-- R187, steps 2 and 3: word k of the product of the transforms. -/
def State.spectrumWord (s : State) (a b : BufIx) (k : Nat) : Nat :=
  transformSum s.n.toNat s.q.toNat s.omegaN.toNat (s.twistWord a) k *
    transformSum s.n.toNat s.q.toNat s.omegaN.toNat (s.twistWord b) k % s.q.toNat

/-- R187, steps 4 and 5: word i of the result. -/
def State.nconvWord (s : State) (a b : BufIx) (i : Nat) : Nat :=
  transformSum s.n.toNat s.q.toNat s.omegaNInv.toNat (s.spectrumWord a b) i * s.nInv.toNat * (s.twi i).toNat % s.q.toNat

section
variable (s : State) (a b : BufIx)

theorem lists_source : Lists s.n.toNat (fun i => (s.poly a i).toNat) (s.source a) := lists_map_range _ _

theorem lists_twiddles : Lists s.n.toNat (fun i => (s.tw i).toNat) s.twiddles := lists_map_range _ _

theorem lists_inverseTwiddles : Lists s.n.toNat (fun i => (s.twi i).toNat) s.inverseTwiddles := lists_map_range _ _

theorem lists_twist : Lists s.n.toNat (s.twistWord a) (pointwise s.modq (s.source a) s.twiddles) :=
  (lists_source s a).pointwise (lists_twiddles s)

theorem lists_negacyclic : Lists s.n.toNat (s.nconvWord a b) (negacyclic s.modq s.omegaN.toNat s.omegaNInv.toNat
    s.nInv.toNat s.twiddles s.inverseTwiddles (s.source a) (s.source b)) :=
  ((lists_twist s a).transform.pointwise (lists_twist s b).transform).transform.scalePointwise (lists_inverseTwiddles s)

end

/-! ### Their results -/

/-- A command whose results are the sequence v 0, v 1, … of residues modulo Q. -/
theorem writesOnlyBuffer_of_lists {i : Instr} {s : State} {d a : BufIx} {vs : List Nat} {v : Nat → Nat}
    (ready : s.PolyReady a) (e : exec i s = complete s (.ok (s.writeBuf d vs)))
    (lists : Lists s.n.toNat (fun k => v k % s.q.toNat) vs) :
    ∃ t, exec i s = .next t ∧ WritesOnlyBuffer s t d ∧ ∀ k < s.n.toNat, (t.poly d k).toNat = v k % s.q.toNat :=
  writesOnlyBuffer_of_exec e lists.length fun k hk => ⟨lists.getD k hk, ready.mod_lt hk _⟩

/-- Settles O33. -/
theorem pmulMultipliesPointwise : Obligations.PmulMultipliesPointwise := fun _ a b s valid readyA readyB =>
  writesOnlyBuffer_of_lists readyA (exec_pmul valid readyA readyB) ((lists_source s a).pointwise (lists_source s b))

/-- R185. -/
theorem twist_writesOnlyBuffer (d : BufIx) {a : BufIx} {s : State} (valid : s.status.ctxValid = true)
    (ready : s.PolyReady a) :
    ∃ t, exec (.twist d a) s = .next t ∧ WritesOnlyBuffer s t d ∧
      ∀ i < s.n.toNat, (t.poly d i).toNat = (s.poly a i).toNat * (s.tw i).toNat % s.q.toNat :=
  writesOnlyBuffer_of_lists ready (exec_twist valid ready) (lists_twist s a)

/-- R186. -/
theorem untwist_writesOnlyBuffer (d : BufIx) {a : BufIx} {s : State} (valid : s.status.ctxValid = true)
    (ready : s.PolyReady a) :
    ∃ t, exec (.untwist d a) s = .next t ∧ WritesOnlyBuffer s t d ∧
      ∀ i < s.n.toNat, (t.poly d i).toNat = (s.poly a i).toNat * s.nInv.toNat * (s.twi i).toNat % s.q.toNat :=
  writesOnlyBuffer_of_lists ready (exec_untwist valid ready)
    ((lists_source s a).scalePointwise (lists_inverseTwiddles s))

/-- Settles O34. -/
theorem scalingCommandsMultiplyEachWord : Obligations.ScalingCommandsMultiplyEachWord := fun d _ _ valid ready =>
  ⟨pscale_writesOnlyBuffer d valid ready, twist_writesOnlyBuffer d valid ready, untwist_writesOnlyBuffer d valid ready⟩

/-- R187. -/
theorem nconv_writesOnlyBuffer (d : BufIx) {a b : BufIx} {s : State} (valid : s.status.ctxValid = true)
    (readyA : s.PolyReady a) (readyB : s.PolyReady b) :
    ∃ t, exec (.nconv d a b) s = .next t ∧ WritesOnlyBuffer s t d ∧
      ∀ i < s.n.toNat, (t.poly d i).toNat = s.nconvWord a b i :=
  writesOnlyBuffer_of_lists readyA (exec_nconv valid readyA readyB) (lists_negacyclic s a b)

/-- Settles O35: the five steps are those of `State.nconvWord`. -/
theorem nconvIsTheFiveSteps : Obligations.NconvIsTheFiveSteps := fun d _ _ _ valid readyA readyB =>
  nconv_writesOnlyBuffer d valid readyA readyB

end Sys2Proof.Machine
end

section
/-! PROOFS. NCONV against its sequence of seven commands (R189). -/

namespace Sys2Proof.Machine

/-! ### The buffers that a command does not write -/

/-- R128: a command with destination d writes no byte outside words 0..n−1 of d. -/
theorem readByte_of_exec {i : Instr} {s t : State} {d : BufIx} (dest : polyDest i = some d)
    (done : exec i s = .next t) {k : Nat} (outside : k < bufBase d ∨ bufBase d + 4 * s.n.toNat ≤ k) :
    t.mem.readByte k = s.mem.readByte k := by
  obtain ⟨code, _, e⟩ | ⟨u, effect, e⟩ := exec_cases i s <;> cases done.symm.trans e
  case inl => rfl
  case inr =>
    cases effect with
    | none | context | registers => cases dest
    | register _ _ _ _ scalar => cases i <;> cases scalar <;> cases dest
    | buffer _ _ d' vs dest' _ length =>
      cases dest.symm.trans dest'
      exact s.mem.readByte_writeWords_of_outside _ _ _ (by rwa [length_toWords, length])

/-- R62, R66: so it leaves the words of every other buffer as they are. -/
theorem poly_of_exec_of_ne {i : Instr} {s t : State} {b d : BufIx} (dest : polyDest i = some d)
    (done : exec i s = .next t) (degree : s.n.toNat ≤ s.config.nmax) (different : b ≠ d) {k : Nat}
    (hk : k < s.n.toNat) : t.poly b k = s.poly b k := by
  have bound := nmax_le s.config
  have apart : b.val ≠ d.val := fun same => different (Fin.ext same)
  have byte (j : Nat) (hj : j < 4) :
      t.mem.readByte (bufBase b + 4 * k + j) = s.mem.readByte (bufBase b + 4 * k + j) :=
    readByte_of_exec dest done (by unfold bufBase; omega)
  simp only [State.poly, Memory.readWord, byte 1 (by decide), byte 2 (by decide), byte 3 (by decide)]
  exact congrArg _ (byte 0 (by decide))

/-! ### The commands on buffers whose words are known -/

theorem SameContext.tw_eq {s t : State} (same : SameContext s t) (i : Nat) : t.tw i = s.tw i :=
  readWord_of_sameContext same (Nat.le_add_right _ _)

theorem SameContext.twi_eq {s t : State} (same : SameContext s t) (i : Nat) : t.twi i = s.twi i :=
  readWord_of_sameContext same ((by decide : twBase ≤ twiBase).trans (Nat.le_add_right _ _))

section
variable {s t u : State} {a b d : BufIx} {v w : Nat → Nat} (holds : HoldsInContext s t a v)
  (degree : s.n.toNat ≤ s.config.nmax)
include holds degree

/-- What a buffer holds outlasts a command with another destination. -/
theorem HoldsInContext.after {i : Instr} (written : HoldsInContext s u d w) (done : Machine.command i t = .next u)
    (wf : i.wf = true) (dest : polyDest i = some d) (different : a ≠ d) : HoldsInContext s u a v where
  valid := written.valid
  context := written.context
  words k hk := by
    have kept : u.poly a k = t.poly a k :=
      poly_of_exec_of_ne dest ((command_eq_exec wf t).symm.trans done)
        (holds.context.n ▸ holds.context.config ▸ degree) different (holds.context.n ▸ hk)
    rw [kept, holds.words k hk]

variable (belowA : ∀ k < s.n.toNat, v k < s.q.toNat)
include belowA

/-- R185. -/
theorem HoldsInContext.twist (d : BufIx) :
    ∃ u, Machine.command (.twist d a) t = .next u ∧
      HoldsInContext s u d (fun k => v k * (s.tw k).toNat % s.q.toNat) := by
  obtain ⟨u, e, written, words⟩ := twist_writesOnlyBuffer d (s := t.issue (encode (.twist d a))) holds.valid
    (holds.polyReady belowA)
  refine holds.command degree rfl ⟨u, e, written, fun k hk => ?_⟩
  rw [words k (holds.context.n ▸ hk)]
  change (t.poly a k).toNat * (t.tw k).toNat % t.q.toNat = _
  rw [holds.words k hk, holds.context.tw_eq, holds.context.q]

/-- R186. -/
theorem HoldsInContext.untwist (d : BufIx) :
    ∃ u, Machine.command (.untwist d a) t = .next u ∧
      HoldsInContext s u d (fun k => v k * s.nInv.toNat * (s.twi k).toNat % s.q.toNat) := by
  obtain ⟨u, e, written, words⟩ := untwist_writesOnlyBuffer d (s := t.issue (encode (.untwist d a))) holds.valid
    (holds.polyReady belowA)
  refine holds.command degree rfl ⟨u, e, written, fun k hk => ?_⟩
  rw [words k (holds.context.n ▸ hk)]
  change (t.poly a k).toNat * t.nInv.toNat * (t.twi k).toNat % t.q.toNat = _
  rw [holds.words k hk, holds.context.nInv, holds.context.twi_eq, holds.context.q]

/-- R183. -/
theorem HoldsInContext.pmul (holdsB : HoldsInContext s t b w) (belowB : ∀ k < s.n.toNat, w k < s.q.toNat)
    (d : BufIx) :
    ∃ u, Machine.command (.pmul d a b) t = .next u ∧ HoldsInContext s u d (fun k => v k * w k % s.q.toNat) := by
  obtain ⟨u, e, written, words⟩ := pmulMultipliesPointwise d a b (t.issue (encode (.pmul d a b))) holds.valid
    (holds.polyReady belowA) (holdsB.polyReady belowB)
  refine holds.command degree rfl ⟨u, e, written, fun k hk => ?_⟩
  rw [words k (holds.context.n ▸ hk)]
  change (t.poly a k).toNat * (t.poly b k).toNat % t.q.toNat = _
  rw [holds.words k hk, holdsB.words k hk, holds.context.q]

end

/-- R187: NCONV issued and waited for. -/
theorem command_nconv {s : State} {a b : BufIx} (d : BufIx) (valid : s.status.ctxValid = true)
    (degree : s.n.toNat ≤ s.config.nmax) (readyA : s.PolyReady a) (readyB : s.PolyReady b) :
    ∃ t, command (.nconv d a b) s = .next t ∧ HoldsInContext s t d (s.nconvWord a b) :=
  (HoldsInContext.refl valid a).command degree rfl
    (nconv_writesOnlyBuffer d (s := s.issue (encode (.nconv d a b))) valid readyA readyB)

/-! ### The sequence -/

/-- Settles O41: each command of the sequence leaves the words of its step of R187 in t1 or t2, and keeps the other one's;
the last one leaves those of NCONV. -/
theorem nconvEqualsItsCommandSequence : Obligations.NconvEqualsItsCommandSequence := by
  intro d a b t1 t2 s valid context readyA readyB _ t1b _ _ t12
  obtain ⟨⟨_, degree⟩, hq, _⟩ := context.parameters
  have positive : 0 < s.q.toNat := Nat.zero_lt_of_lt hq
  have residue (v : Nat → Nat) : ∀ k < s.n.toNat, v k % s.q.toNat < s.q.toNat := fun k _ => Nat.mod_lt _ positive
  obtain ⟨s1, e1, twistA⟩ := (HoldsInContext.refl valid a).twist degree readyA t1
  have sourceB := (HoldsInContext.refl valid b).after degree twistA e1 rfl rfl t1b.symm
  obtain ⟨s2, e2, twistB⟩ := sourceB.twist degree readyB t2
  have twistA := twistA.after degree twistB e2 rfl rfl t12
  obtain ⟨s3, e3, nttA⟩ := twistA.ntt degree (residue _) t1
  have twistB := twistB.after degree nttA e3 rfl rfl t12.symm
  obtain ⟨s4, e4, nttB⟩ := twistB.ntt degree (residue _) t2
  have nttA := nttA.after degree nttB e4 rfl rfl t12
  obtain ⟨s5, e5, spectrum⟩ := nttA.pmul degree (residue _) nttB (residue _) t1
  obtain ⟨s6, e6, inverse⟩ := spectrum.intt degree (residue _) t1
  obtain ⟨s7, e7, sequence⟩ := inverse.untwist degree (residue _) d
  obtain ⟨t, e, nconv⟩ := command_nconv d valid degree readyA readyB
  exact ⟨s1, s2, s3, s4, s5, s6, s7, t, e1, e2, e3, e4, e5, e6, e7, e, fun i hi =>
    BitVec.eq_of_toNat_eq ((nconv.words i hi).trans (sequence.words i hi).symm)⟩

end Sys2Proof.Machine
end

section
/-! PROOFS. NCONV is the product modulo xⁿ + 1 and modulo q (R188). -/

namespace Sys2Proof.Machine

/-! ### The convolution theorem -/

/-- Word m of the cyclic convolution of f and g. -/
def cyclicProduct {R : Type} [CommRing R] (n : Nat) (f g : Nat → R) (m : Nat) : R :=
  ∑ i ∈ Finset.range n, ∑ j ∈ Finset.range n, if (i + j) % n = m then f i * g j else 0

/-- The sequence f with word i multiplied by w^i. -/
def twisted {R : Type} [CommRing R] (w : R) (f : Nat → R) (i : Nat) : R := f i * w ^ i

/-- Word m of the product modulo xⁿ + 1 of f and g. -/
def negacyclicProduct {R : Type} [CommRing R] (n : Nat) (f g : Nat → R) (m : Nat) : R :=
  ∑ i ∈ Finset.range n, ∑ j ∈ Finset.range n,
    if i + j = m then f i * g j else if i + j = m + n then -(f i * g j) else 0

section
variable {R : Type} [CommRing R] {n : Nat} {f g : Nat → R}

/-- The transform of a cyclic convolution is the product of the transforms. -/
theorem rootSum_cyclicProduct {ζ : R} (root : ζ ^ n = 1) (k : Nat) :
    rootSum n ζ (cyclicProduct n f g) k = rootSum n ζ f k * rootSum n ζ g k := by
  have term (i j : Nat) (hi : i < n) :
      ∑ m ∈ Finset.range n, (if (i + j) % n = m then f i * g j else 0) * ζ ^ (m * k) =
        f i * ζ ^ (i * k) * (g j * ζ ^ (j * k)) := by
    have inRange : (i + j) % n ∈ Finset.range n := Finset.mem_range.2 (Nat.mod_lt _ (Nat.zero_lt_of_lt hi))
    have period : ζ ^ ((i + j) % n * k) = ζ ^ (i * k) * ζ ^ (j * k) := by
      rw [pow_mul, ← pow_eq_pow_mod _ root, ← pow_mul, add_mul, pow_add]
    simp only [ite_mul, zero_mul, Finset.sum_ite_eq, if_pos inRange, period]
    ring
  unfold rootSum cyclicProduct
  simp_rw [Finset.sum_mul, Finset.mul_sum]
  rw [Finset.sum_comm]
  refine Finset.sum_congr rfl fun i hi => ?_
  rw [Finset.sum_comm]
  exact Finset.sum_congr rfl fun j _ => term i j (Finset.mem_range.1 hi)

/-- Twisted by a root w with wⁿ = −1, the terms that a cyclic convolution wraps around change their sign. -/
theorem cyclicProduct_twist {w : R} (root : w ^ n = -1) {m : Nat} (hm : m < n) :
    cyclicProduct n (twisted w f) (twisted w g) m = w ^ m * negacyclicProduct n f g m := by
  unfold cyclicProduct negacyclicProduct
  simp_rw [Finset.mul_sum]
  refine Finset.sum_congr rfl fun i hi => Finset.sum_congr rfl fun j hj => ?_
  have hi := Finset.mem_range.1 hi
  have hj := Finset.mem_range.1 hj
  have product : twisted w f i * twisted w g j = w ^ (i + j) * (f i * g j) := by unfold twisted; ring
  rw [product]
  by_cases low : i + j = m
  · rw [if_pos low, if_pos (by rw [low, Nat.mod_eq_of_lt hm]), low]
  rw [if_neg low]
  by_cases high : i + j = m + n
  · rw [if_pos high, if_pos (by rw [high, Nat.add_mod_right, Nat.mod_eq_of_lt hm]), high, pow_add, root]
    ring
  have other : (i + j) % n ≠ m := by
    obtain small | large := Nat.lt_or_ge (i + j) n
    · rwa [Nat.mod_eq_of_lt small]
    · rw [Nat.mod_eq_sub_mod large, Nat.mod_eq_of_lt (by omega)]
      omega
  rw [if_neg high, if_neg other, mul_zero]

/-- R188, in a domain: the five steps of R187 before the division by n. -/
theorem rootSum_twisted_spectrum [IsDomain R] {w v ζ ξ : R} (root : w ^ n = -1) (inverse : w * v = 1)
    (primitive : IsPrimitiveRoot ζ n) (inverse' : ζ * ξ = 1) {m : Nat} (hm : m < n) :
    rootSum n ξ (fun k => rootSum n ζ (twisted w f) k * rootSum n ζ (twisted w g) k) m * v ^ m =
      n * negacyclicProduct n f g m := by
  have powers : w ^ m * v ^ m = 1 := by rw [← mul_pow, inverse, one_pow]
  simp_rw [← rootSum_cyclicProduct primitive.pow_eq_one]
  rw [rootSum_rootSum primitive inverse' hm, cyclicProduct_twist root hm]
  linear_combination (n * negacyclicProduct n f g m) * powers

end

/-! ### The words of the five steps in ℤ/q -/

theorem rootSum_congr {R : Type} [CommRing R] {n k : Nat} {ζ : R} {f g : Nat → R} (same : ∀ j < n, f j = g j) :
    rootSum n ζ f k = rootSum n ζ g k :=
  Finset.sum_congr rfl fun j hj => by rw [same j (Finset.mem_range.1 hj)]

/-- The words of a buffer in ℤ/q. -/
def State.residue (s : State) (b : BufIx) (i : Nat) : ZMod s.q.toNat := (s.poly b i).toNat

section
variable {s : State} (context : s.ContextOk) (a b : BufIx)
include context

/-- R187, step 1. -/
theorem State.ContextOk.natCast_twistWord {i : Nat} (hi : i < s.n.toNat) :
    (s.twistWord a i : ZMod s.q.toNat) = twisted (s.omega.toNat : ZMod s.q.toNat) (s.residue a) i := by
  rw [State.twistWord, ZMod.natCast_mod, Nat.cast_mul, context.tw i hi, ZMod.natCast_mod, Nat.cast_pow]
  rfl

/-- R187, steps 2 and 3. -/
theorem State.ContextOk.natCast_spectrumWord (k : Nat) :
    (s.spectrumWord a b k : ZMod s.q.toNat) =
      rootSum s.n.toNat (s.omegaN.toNat : ZMod s.q.toNat) (twisted s.omega.toNat (s.residue a)) k *
      rootSum s.n.toNat (s.omegaN.toNat : ZMod s.q.toNat) (twisted s.omega.toNat (s.residue b)) k := by
  rw [State.spectrumWord, ZMod.natCast_mod, Nat.cast_mul, natCast_transformSum, natCast_transformSum,
    rootSum_congr fun _ => context.natCast_twistWord a, rootSum_congr fun _ => context.natCast_twistWord b]

/-- R187, steps 4 and 5; N_INV takes n away, for prime q. -/
theorem State.ContextOk.natCast_nconvWord (prime : s.q.toNat.Prime) {i : Nat} (hi : i < s.n.toNat) :
    (s.nconvWord a b i : ZMod s.q.toNat) = negacyclicProduct s.n.toNat (s.residue a) (s.residue b) i := by
  have field : Fact s.q.toNat.Prime := ⟨prime⟩
  have scaled : (s.n.toNat : ZMod s.q.toNat) * s.nInv.toNat = 1 := by
    rw [← Nat.cast_mul, ← ZMod.natCast_mod, context.n_mul_nInv prime, Nat.cast_one]
  have steps := rootSum_twisted_spectrum (f := s.residue a) (g := s.residue b) context.omega_pow_n
    context.omega_mul_omegaInv context.omegaN_primitive context.omegaN_mul_omegaNInv hi
  rw [State.nconvWord, ZMod.natCast_mod, Nat.cast_mul, Nat.cast_mul, natCast_transformSum,
    funext (context.natCast_spectrumWord a b), context.twi i hi, ZMod.natCast_mod, Nat.cast_pow]
  linear_combination
    (s.nInv.toNat : ZMod s.q.toNat) * steps + negacyclicProduct s.n.toNat (s.residue a) (s.residue b) i * scaled

end

/-! ### The remainder -/

/-- A number below q that is congruent to an integer is its remainder. -/
theorem natCast_eq_emod {q a : Nat} {z : Int} (below : a < q) (same : (a : ZMod q) = z) : (a : Int) = z % q := by
  have congruent := (ZMod.intCast_eq_intCast_iff' (a : Int) z q).1 (by rwa [Int.cast_natCast])
  rwa [Int.emod_eq_of_lt (by omega) (by omega)] at congruent

theorem intCast_negacyclicProduct {R : Type} [CommRing R] (n : Nat) (f g : Nat → Int) (m : Nat) :
    ((negacyclicProduct n f g m : Int) : R) = negacyclicProduct n (fun i => (f i : R)) (fun j => (g j : R)) m := by
  simp only [negacyclicProduct, Int.cast_sum, apply_ite (Int.cast (R := R)), Int.cast_mul, Int.cast_neg, Int.cast_zero]

/-- Settles O40: the words of NCONV are below q, and in ℤ/q they are those of the product. -/
theorem nconvIsTheNegacyclicProduct : Obligations.NconvIsTheNegacyclicProduct := by
  intro d a b s valid context prime readyA readyB
  obtain ⟨t, e, -, words⟩ := nconv_writesOnlyBuffer d valid readyA readyB
  have residue (c : BufIx) : s.residue c = fun i => (((s.poly c i).toNat : Int) : ZMod s.q.toNat) :=
    funext fun i => (Int.cast_natCast (s.poly c i).toNat).symm
  refine ⟨t, e, fun k hk => ?_⟩
  rw [words k hk]
  refine natCast_eq_emod (Nat.mod_lt _ prime.pos) ((context.natCast_nconvWord a b prime hk).trans ?_)
  rw [residue a, residue b]
  exact (intCast_negacyclicProduct (R := ZMod s.q.toNat) _ _ _ k).symm

end Sys2Proof.Machine
end

section
/-! PROOFS. Exceptions: which command can report which code (R210), and the block with nothing to do (R224). -/

namespace Sys2Proof.Machine

/-! ### The idle block -/

/-- Settles O10: with nothing scheduled the step is a completion, and an idle engine has none. -/
theorem idleBlockWaits : Obligations.IdleBlockWaits := fun _ idle schedule =>
  (step_of_schedule_nil schedule).trans (handle_complete_of_inactive (.inr idle))

/-! ### The 'raised by' column, by code -/

/-- R210: the codes have different bits. -/
theorem Code.bits_injective : Function.Injective Code.bits := by
  intro c d
  cases c <;> cases d <;> decide

/-- R210: a code other than 0 is reported only by a command that has it among its errors. -/
theorem mem_errors_of_lastCode {i : Instr} {s t : State} {code : Code} (h : exec i s = .next t) (failed : code ≠ .ok)
    (reported : t.status.lastCode = code.bits) : code ∈ errors i := by
  obtain zero | ⟨c, hc, e⟩ := exec_lastCode h
  · exact absurd (Code.bits_eq_zero.1 (reported.symm.trans zero)) failed
  · exact Code.bits_injective (reported.symm.trans e) ▸ hc

section
variable {i : Instr}

/-- The errors of BFLY depend on its operands (R99, log 18). -/
theorem mem_errors_bfly_iff {w a b : RegIx} {code : Code} : code ∈ errors (.bfly w a b) ↔
    (a = b ∧ code = .illegalCommand) ∨ (a ≠ b ∧ code = .invalidInput) := by
  by_cases same : a = b <;> simp [errors, same]

theorem notInvertible_mem_errors_iff : .notInvertible ∈ errors i ↔ ∃ d a, i = .minv d a := by
  cases i with
  | bfly w a b => simp [mem_errors_bfly_iff]
  | _ => simp [errors]

theorem class_of_invalidInput_mem_errors (h : .invalidInput ∈ errors i) :
    i.isScalar = true ∨ i = .ctxset ∨ i.checkedSources ≠ [] := by
  cases i with
  | madd | msub | mmul | mpow | minv | bfly => exact .inl rfl
  | ctxset => exact .inr (.inl rfl)
  | ntt | intt | pmul | pscale | twist | untwist | nconv => exact .inr (.inr (List.cons_ne_nil _ _))
  | nop | bitrev => simp [errors] at h

theorem invalidRoot_mem_errors_iff : .invalidRoot ∈ errors i ↔ i = .ctxset := by
  cases i with
  | bfly w a b => simp [mem_errors_bfly_iff]
  | _ => simp [errors]

theorem illegalCommand_mem_errors_iff : .illegalCommand ∈ errors i ↔ i.wf = false := by
  cases i with
  | bfly w a b => simp [mem_errors_bfly_iff, Instr.wf]
  | _ => simp [errors, Instr.wf]

theorem noContext_mem_errors_iff : .noContext ∈ errors i ↔ ∃ d, polyDest i = some d := by
  cases i with
  | bfly w a b => simp [mem_errors_bfly_iff, polyDest]
  | _ => simp [errors, polyDest]

end

/-- Settles O13: a reported code is among the errors of its command, and each code has its own commands there. -/
theorem eachCommandRaisesOnlyItsErrors : Obligations.EachCommandRaisesOnlyItsErrors := by
  intro i s t h
  have raised (code : Code) (failed : code ≠ .ok) (e : t.status.lastCode = code.bits) : code ∈ errors i :=
    mem_errors_of_lastCode h failed e
  exact ⟨exec_lastCode_mem h,
    fun e => notInvertible_mem_errors_iff.1 (raised .notInvertible nofun e),
    fun e => class_of_invalidInput_mem_errors (raised .invalidInput nofun e),
    fun e => invalidRoot_mem_errors_iff.1 (raised .invalidRoot nofun e),
    fun e => illegalCommand_mem_errors_iff.1 (raised .illegalCommand nofun e),
    fun e => noContext_mem_errors_iff.1 (raised .noContext nofun e)⟩

end Sys2Proof.Machine
end

section
/-! PROOFS. Hazards of the busy period (R250, R251): at which offsets a read gets a free word, and a write is ignored.
And the block without modulus and context (R243). -/

namespace Sys2Proof.Machine

/-! ### The register map -/

section
variable {cfg : Config} {a : Nat}

/-- R22, R47: a register is at every aligned offset of x. -/
theorem exists_locate_x (aligned : a % 4 = 0) (range : 0x0040 ≤ a ∧ a ≤ 0x007C) : ∃ r, locate cfg a = some (.x r) :=
  ⟨⟨(a - 0x0040) / 4, by omega⟩, locate_x (by simp only; omega)⟩

/-- R66: a word is at every aligned offset of P with an index below NMAX. -/
theorem exists_locate_poly (aligned : a % 4 = 0) (range : 0x4000 ≤ a ∧ a ≤ 0x7FFF) (below : a / 4 % 1024 < cfg.nmax) :
    ∃ b i, locate cfg a = some (.poly b i) :=
  ⟨⟨(a - 0x4000) / 4096, by omega⟩, _, locate_poly below (by simp only; omega)⟩

/-- R250: a location whose value a busy read does not give is at every offset that the rule names. The converse of
`resultOffset_of_locate`. -/
theorem locate_of_resultOffset (h : ResultOffset cfg a) :
    ∃ l, locate cfg a = some l ∧ l.unspecifiedWhileBusy = true := by
  obtain ⟨aligned, derived | scalar | ⟨low, high, below⟩⟩ := h
  · simp only [List.mem_cons, List.not_mem_nil, or_false] at derived
    obtain rfl | rfl | rfl | rfl := derived <;> exact ⟨_, rfl, rfl⟩
  · obtain ⟨r, at_x⟩ := exists_locate_x aligned scalar
    exact ⟨_, at_x, rfl⟩
  · obtain poly | tw | twi : a ≤ 0x7FFF ∨ (0x8000 ≤ a ∧ a ≤ 0x8FFF) ∨ 0x9000 ≤ a := by omega
    · obtain ⟨b, i, at_poly⟩ := exists_locate_poly aligned ⟨low, poly⟩ below
      exact ⟨_, at_poly, rfl⟩
    · exact ⟨_, locate_tw below (by omega), rfl⟩
    · exact ⟨_, locate_twi below (by omega), rfl⟩

end

/-! ### The busy period -/

/-- Settles O52: a result location is at each of R250's offsets; the seven registers answer reads busy or not. -/
theorem busyReadsOfResultsAreUnspecified : Obligations.BusyReadsOfResultsAreUnspecified := by
  refine ⟨fun addr s c engine result => ?result, fun addr s w register => ?register⟩
  case result =>
    obtain ⟨l, at_l, free⟩ := locate_of_resultOffset result
    exact hostRead_of_busy result.1 at_l (by simp [State.busy, engine]) free
  case register =>
    have located : ∃ l, addr.toNat % 4 = 0 ∧ locate s.config addr.toNat = some l ∧ l.unspecifiedWhileBusy = false ∧
        w = s.valueAt l := by
      generalize addr.toNat = a at register ⊢
      simp only [List.mem_cons, Prod.mk.injEq, List.not_mem_nil, or_false] at register
      obtain ⟨rfl, rfl⟩ | ⟨rfl, rfl⟩ | ⟨rfl, rfl⟩ | ⟨rfl, rfl⟩ | ⟨rfl, rfl⟩ | ⟨rfl, rfl⟩ | ⟨rfl, rfl⟩ := register <;>
        exact ⟨_, rfl, rfl, rfl, rfl⟩
    obtain ⟨l, aligned, at_l, specified, rfl⟩ := located
    exact hostRead_of_locate aligned at_l (.inr specified)

/-- Settles O53: at each of these offsets is a location that takes writes, but not during a busy period. -/
theorem busyWritesAreIgnored : Obligations.BusyWritesAreIgnored := by
  intro addr v s c engine aligned offset
  have located : ∃ l, locate s.config addr.toNat = some l ∧ l.readOnly = false ∧ l.acceptedWhileBusy = false := by
    obtain register | scalar | ⟨low, high, below⟩ := offset
    · generalize addr.toNat = a at register ⊢
      simp only [List.mem_cons, List.not_mem_nil, or_false] at register
      obtain rfl | rfl | rfl | rfl := register <;> exact ⟨_, rfl, rfl, rfl⟩
    · obtain ⟨r, at_x⟩ := exists_locate_x aligned scalar
      exact ⟨_, at_x, rfl, rfl⟩
    · obtain ⟨b, i, at_poly⟩ := exists_locate_poly aligned ⟨low, high⟩ below
      exact ⟨_, at_poly, rfl, rfl⟩
  obtain ⟨l, at_l, writable, ignored⟩ := located
  exact hostWrite_of_busy aligned at_l writable (by simp [State.busy, engine]) ignored

/-! ### No modulus and no context -/

/-- Settles O24: Q = 0 fails the modulus check, and the context check is a polynomial command's first. -/
theorem withoutModulusAndContextCommandsFail : Obligations.WithoutModulusAndContextCommandsFail := by
  refine ⟨rfl, rfl, fun i s wf noModulus noContext => ⟨fun scalar => ?scalar, fun d dest => ?polynomial⟩⟩
  case scalar =>
    have small : s.q.toNat < 3 := by simp [noModulus]
    exact (scalarCommandsCheckModulusAndOperands i s scalar wf).1 (.inl small)
  case polynomial => exact polynomialCommandsNeedAContext i d s dest noContext

end Sys2Proof.Machine
end

section
/-! PROOFS. Reset (R240, R241): the values after it, and what an abandoned command leaves in memory. -/

namespace Sys2Proof.Machine

/-- R22, R240: the vector of x0–x15 is a constant one after reset. -/
theorem readX_reset (r : RegIx) : State.reset.readX r = 0 := by simp [State.readX, State.reset, Vector.get]

/-- Settles O55: every register but x is a literal of `State.reset`, and INFO, STATUS and irq compute from literals. -/
theorem resetValues : Obligations.ResetValues :=
  ⟨readX_reset, rfl, rfl, rfl, rfl, rfl, rfl, rfl, rfl, rfl, rfl, rfl, rfl, rfl⟩

/-! ### The abandoned command -/

section
variable {s : State} {c : Word} {i : Instr}

theorem abandon_of_idle (h : s.engine = .idle) : abandon s = s := by simp [abandon, h]

theorem abandon_of_decode_ok (h : s.engine = .busy c) (hd : decode c = .ok i) : abandon s = abandonInstr i s := by
  simp [abandon, h, hd]

/-- Log 22: whatever the opcode of the word. -/
theorem abandon_of_illegal (h : s.engine = .busy c) (hd : ∀ i, decode c ≠ .ok i) : abandon s = s := by
  cases word : decode c with
  | ok i => exact absurd word (hd i)
  | error e => simp [abandon, h, word]

/-- R241: a command with no result in memory. -/
theorem abandonInstr_of_noResult (dest : polyDest i = none) (h : i ≠ .ctxset) : abandonInstr i s = s := by
  simp [abandonInstr, dest, h]

/-- Log 8. -/
theorem abandonInstr_of_noContext {d : BufIx} (dest : polyDest i = some d) (absent : s.status.ctxValid = false) :
    abandonInstr i s = s := by
  simp [abandonInstr, dest, absent]

/-- R241: a polynomial command with a context. -/
theorem abandonInstr_of_context {d : BufIx} (dest : polyDest i = some d) (valid : s.status.ctxValid = true) :
    abandonInstr i s = s.scramble (bufBase d) s.n.toNat := by
  simp [abandonInstr, dest, valid, State.degree]

/-- R241, log 9: CTXSET, as far as the tables go. -/
theorem abandonInstr_ctxset : abandonInstr .ctxset s =
    (s.scramble twBase (min s.n.toNat s.config.nmax)).scramble twiBase (min s.n.toNat s.config.nmax) := rfl

end

/-- The windows do not overlap, so what is drawn for TWI leaves the words drawn for TW. -/
theorem readWord_scramble_tables (s : State) {m j : Nat} (hm : m ≤ s.config.nmax) (hj : j < m) :
    ((s.scramble twBase m).scramble twiBase m).mem.readWord (twBase + 4 * j) = Config.freeWord (s.draws + j) := by
  have apart : twBase + 4 * j + 4 ≤ twiBase := by
    have := nmax_le s.config
    unfold twBase twiBase
    omega
  rw [State.readWord_scramble_of_outside _ _ _ _ (.inl apart), State.readWord_scramble _ _ _ _ hj]

/-! ### The edge and the release -/

/-- R240: the registers at their reset values, and memory and draws as the abandoned command leaves them. -/
theorem resetEdge_eq (s : State) : resetEdge s = { State.reset with
    config := s.config, mem := (abandon s).mem, rstN := false, schedule := s.schedule, draws := (abandon s).draws } :=
  rfl

/-- Settles O56: the reset edge takes memory from `abandon`, so each kind of running word is its law. -/
theorem resetEdgeResetsRegistersAndKeepsMemory : Obligations.ResetEdgeResetsRegistersAndKeepsMemory := by
  intro s
  refine ⟨⟨_, handle_resetEdge s, resetEdge_eq s, fun idle => ?idle, fun c i busy word => ?legal, fun c busy illegal =>
    ?illegal⟩, fun inReset => ⟨fun tr => handle_host_of_inReset tr inReset, handle_complete_of_inactive (.inl inReset)⟩,
    handle_resetRelease s⟩
  case idle => simp [resetEdge_eq, abandon_of_idle idle]
  case illegal => simp [resetEdge_eq, abandon_of_illegal busy illegal]
  case legal =>
    simp only [resetEdge_eq, State.poly, State.tw, State.twi, abandon_of_decode_ok busy word]
    refine ⟨fun dest other => ?noResult, fun d dest => ⟨fun absent => ?noContext, fun valid => ?polynomial⟩, ?ctxset⟩
    case noResult => simp [abandonInstr_of_noResult dest other]
    case noContext => simp [abandonInstr_of_noContext dest absent]
    case polynomial =>
      rw [abandonInstr_of_context dest valid]
      exact ⟨fun j hj => s.readWord_scramble _ _ j hj, rfl,
        fun k outside => s.readByte_scramble_of_outside _ _ k outside⟩
    case ctxset =>
      rintro rfl
      have tables : min s.n.toNat s.config.nmax ≤ s.config.nmax := min_le_right _ _
      rw [abandonInstr_ctxset]
      generalize min s.n.toNat s.config.nmax = m at tables ⊢
      exact ⟨fun j hj => readWord_scramble_tables s tables hj,
        fun j hj => (s.scramble twBase m).readWord_scramble twiBase m j hj, rfl,
        fun k tw twi => ((s.scramble twBase m).readByte_scramble_of_outside twiBase m k twi).trans
          (s.readByte_scramble_of_outside twBase m k tw)⟩

end Sys2Proof.Machine
end
